-- ==== Sys2Proof/Word.lean ====
section
/-! DEFINITION. The two word types of BMPC: the byte of the data memory (spec/20_memory.md R38) and the 32-bit
word of the register window (spec/10_state.md R16). -/

namespace Sys2Proof

/-- A byte of the data memory; also a pixel sample (R6: 8 bits, unsigned). -/
abbrev Byte := BitVec 8

/-- A 32-bit register or command word (R6, R55). -/
abbrev Word := BitVec 32

end Sys2Proof
end

