-- ==== Sys2Proof/Config.lean ====
section
/-! DEFINITION. What an implementation fixes (spec/00_scope.md R6, the OPEN parameters) and the free values of the
model (spec/93_implementation_defined.md S2, S3). -/

namespace Sys2Proof

/-- The OPEN parameters of R6. They are arguments of the model, fixed for a run: State carries them in its field
`cfg`, which no step changes (log 1). -/
structure Config where
  /-- `MEM_BYTES`, the size of the data memory in bytes (R38). -/
  memBytes : Nat
  /-- `NUM_LANES`, the number of lanes (R19, R88). -/
  numLanes : Nat
  /-- `REG_BASE`, the host bus address of the register window (R16, R47). -/
  regBase : Nat
  deriving DecidableEq, Repr

/-- The ranges R6 gives the parameters: 1 ≤ MEM_BYTES ≤ 2^32, 1 ≤ NUM_LANES ≤ 2^32 − 1, REG_BASE 256-byte aligned. -/
abbrev Config.ok (c : Config) : Prop :=
  (1 ≤ c.memBytes ∧ c.memBytes ≤ 2 ^ 32) ∧ (1 ≤ c.numLanes ∧ c.numLanes ≤ 2 ^ 32 - 1) ∧ c.regBase % 256 = 0

/-- The parameters State.reset names. DESIGN CHOICE (log 1): MEM_BYTES and NUM_LANES are those of the common start
state of spec/95_test_vectors.md; REG_BASE is any 256-byte aligned address. Statements hold for every `Config`. -/
def Config.reference : Config := { memBytes := 0x10000, numLanes := 4, regBase := 0x40000000 }

/-- FREE VALUE (log 4): the byte draw number `n` leaves at address `a` of the destination written region when reset
comes while a command runs (R121). No body: nothing can be proved of its value. -/
opaque Config.freeByte : Nat → Nat → Byte

/-- FREE VALUE (log 4): what draw number `n` leaves in the `k`-th 32-bit latch at reset (R33, R120). -/
opaque Config.freeWord : Nat → Nat → Word

/-- FREE VALUE (log 4): what draw number `n` leaves in lat.TOPDOWN at reset (R33, R120). -/
opaque Config.freeBit : Nat → Bool

end Sys2Proof
end

