-- ==== Sys2Proof/Machine/HostOp.lean ====
section
/-! DEFINITION. What a host does to the block: the five operations of spec/30_encoding.md R66 as bus transactions.
Register accesses carry the bus address and the width, so that the accesses R17 and R124 forbid can be written down
(and are then refused). -/

namespace Sys2Proof.Machine

/-- A value a host variable holds: the word an RD returned or the bytes an MR returned (R66). -/
inductive HostVal where
  | word (w : Word)
  | bytes (bs : List Byte)
  deriving DecidableEq, Repr

/-- The data of a register write: a number, or a host variable as CHAIN uses it (R67). -/
inductive HostArg where
  | lit (v : Word)
  | var (x : Nat)
  deriving DecidableEq, Repr

/-- The host's operations (R66). Host variables are numbered. -/
inductive HostOp where
  /-- A register write of `width` bytes at bus address `addr` (`WR`: width 4 at REG_BASE + offset). -/
  | write (addr width : Nat) (v : HostArg)
  /-- A register read of `width` bytes at bus address `addr` into variable `x` (`RD`). -/
  | read (addr width x : Nat)
  /-- `POLL`: repeat a 32-bit read at `addr` until `(value & mask) = v`. -/
  | poll (addr : Nat) (mask v : Word)
  /-- `MW`: byte writes to MEM from address `addr` up, one transaction a byte. -/
  | memWrite (addr : Nat) (bs : List Byte)
  /-- `MR`: byte reads of MEM from `addr`, `n` still to come, `got` already read; bound to `x` at the end. -/
  | memRead (addr n x : Nat) (got : List Byte)
  deriving DecidableEq, Repr

end Sys2Proof.Machine
end

