-- ==== Sys2Proof/Syntax.lean ====
section
/-! DEFINITION. The commands of BMPC, one constructor for each row of spec/opcode_table.json (spec/30_encoding.md
R56). No command word has an operand field (R55): operands are the latched registers (R57). -/

namespace Sys2Proof

/-- The six legal commands (R56). -/
inductive Instr where
  /-- NOP, 0x00000000 (spec/40_control.md R74). -/
  | nop
  /-- DECODE, 0x00000001 (spec/41_codec.md R85). -/
  | decode
  /-- ENCODE, 0x00000002 (spec/41_codec.md R87). -/
  | encode
  /-- ROTCW, 0x00000003 (spec/43_rotate.md R95). -/
  | rotcw
  /-- ROTCCW, 0x00000004 (spec/43_rotate.md R96). -/
  | rotccw
  /-- BLUR, 0x00000005 (spec/44_blur.md R101). -/
  | blur
  deriving DecidableEq, Repr

end Sys2Proof
end

