-- ==== Sys2Proof/Machine/State.lean ====
section
/-! DEFINITION. The state of BMPC as plain data (spec/10_state.md, spec/20_memory.md R38), the state after reset, and
the reasons a step can stop. -/

namespace Sys2Proof.Machine

/-- The values of STATUS.ERRCODE (spec/60_exceptions.md R104). Codes 0x09 to 0xFF are never produced. -/
inductive ErrCode where
  | none
  | fileOpen
  | invalidFormat
  | truncatedData
  | invalidDimension
  | allocation
  | illegalCommand
  | address
  | overlap
  deriving DecidableEq, Repr

/-- The fields of STATUS (R22). Its reserved bits read 0 and hold nothing. -/
structure Status where
  busy : Bool
  done : Bool
  err : Bool
  fatal : Bool
  ovr : Bool
  errcode : ErrCode
  deriving DecidableEq, Repr

/-- The registers of the window that hold a value (R16). ID and LANES are constants and CMD holds no value (R21). -/
structure Regs where
  /-- CTRL.TOPDOWN (R20). -/
  topdown : Bool
  /-- STATUS (R22). -/
  status : Status
  /-- ERRINFO (R24). -/
  errinfo : Word
  srcBase : Word
  srcLen : Word
  dstBase : Word
  dstCap : Word
  width : Word
  height : Word
  outWidth : Word
  outHeight : Word
  outLen : Word
  deriving DecidableEq, Repr

/-- The latches of the running command (R33), which the host cannot read. -/
structure Latches where
  cmd : Word
  topdown : Bool
  srcBase : Word
  srcLen : Word
  dstBase : Word
  dstCap : Word
  width : Word
  height : Word
  deriving DecidableEq, Repr

/-- The data memory MEM (R38): the bytes that differ from what an unlisted address reads as, by rising address. -/
abbrev Memory := List Host.Cell

/-- Whose step is next: the host, the engine (R5), or the reset input (R120). -/
inductive Turn where
  | host
  | engine
  | reset
  deriving DecidableEq, Repr

/-- The engine's three states (R32); a view of STATUS, not stored. -/
inductive EngineState where
  | idle
  | running
  | halted
  deriving DecidableEq, Repr

/-- The host agent (R5): its program still to run, and its variables (R66). The model's own (log 7). -/
structure HostAgent where
  prog : List HostOp
  vars : List (Nat × HostVal)
  deriving DecidableEq, Repr

/-- The machine. -/
structure State where
  /-- The parameters MEM_BYTES, NUM_LANES, REG_BASE; no step changes them (R6, log 1). -/
  cfg : Config
  /-- The register window (R16). -/
  regs : Regs
  /-- The latches (R33). -/
  lat : Latches
  /-- The data memory (R38). -/
  mem : Memory
  /-- The model's own: the turns of the next steps (log 5). -/
  sched : List Turn
  /-- The model's own: the host (log 7). -/
  host : HostAgent
  /-- The model's own: how many free draws were made (log 4). -/
  draws : Nat
  deriving DecidableEq, Repr

/-- Why the machine stops with a fault. -/
inductive Fault where
  /-- The host accesses a MEM byte at `addr` ≥ MEM_BYTES, an address R38 says does not exist. Raised by the host's MW
  and MR only, never by a command. Safe: the run stops where the spec gives no byte (log 8). -/
  | noSuchMemByte (addr : Nat)
  deriving DecidableEq, Repr

/-- Why the model gives a step no meaning. -/
inductive Refusal where
  /-- An instruction the model has no meaning for; raised by exec's refused arms (there is none). Safe. -/
  | notModelled (mnemonic : String)
  /-- A host register access that is not aligned or not 4 bytes wide (R17, R113, R124). Raised by the host's WR, RD
  and POLL. Safe: the spec says a model refuses it. -/
  | badRegisterAccess (addr width : Nat)
  /-- A host register access at a bus address outside the block's 256-byte window (R16, R47): another device's, whose
  behaviour the spec does not give. Safe (log 8). -/
  | outsideWindow (addr : Nat)
  /-- A host access to a byte of the running command's source or written region (R49 (c), R113, R125). Raised by the
  host's MW and MR while BUSY = 1. Safe: the spec says a model refuses it. -/
  | race (addr : Nat)
  /-- A host write of a variable that holds no word: the host's program has no meaning in R66. Safe (log 7). -/
  | unboundHostVariable (arg : HostArg)
  deriving DecidableEq, Repr

/-- STATUS after reset: 0x00000000 (R120). -/
def Status.reset : Status :=
  { busy := false, done := false, err := false, fatal := false, ovr := false, errcode := .none }

/-- The registers after reset (R16, R120): TOPDOWN = 1, every other one 0. -/
def Regs.reset : Regs :=
  { topdown := true, status := Status.reset, errinfo := 0#32, srcBase := 0#32, srcLen := 0#32, dstBase := 0#32,
    dstCap := 0#32, width := 0#32, height := 0#32, outWidth := 0#32, outHeight := 0#32, outLen := 0#32 }

/-- The latches of State.reset. DESIGN CHOICE (log 3): the spec leaves them unspecified (R33, R120). -/
def Latches.reset : Latches :=
  { cmd := 0#32, topdown := false, srcBase := 0#32, srcLen := 0#32, dstBase := 0#32, dstCap := 0#32, width := 0#32,
    height := 0#32 }

/-- Power-up (R122): reset with the given parameters and any content of MEM (R39); no host operation and no turn is
pending. -/
def State.powerUp (c : Config) (m : Memory) : State :=
  { cfg := c, regs := Regs.reset, lat := Latches.reset, mem := m, sched := [], host := { prog := [], vars := [] },
    draws := 0 }

/-- The machine right after reset (R120): the parameters of log 1, MEM with nothing listed (log 2). -/
def State.reset : State := State.powerUp Config.reference []

end Sys2Proof.Machine
end

