-- ==== Sys2Proof/Machine/Flags.lean ====
section
/-! DEFINITION. STATUS, the only flags of BMPC (spec/10_state.md R22, R34): its 32-bit view, the engine state it
stands for (R32), and each change a rule makes to it. -/

namespace Sys2Proof.Machine

/-- The 8-bit code of STATUS.ERRCODE (spec/60_exceptions.md R104). -/
def ErrCode.code : ErrCode → BitVec 8
  | .none => 0x00#8
  | .fileOpen => 0x01#8
  | .invalidFormat => 0x02#8
  | .truncatedData => 0x03#8
  | .invalidDimension => 0x04#8
  | .allocation => 0x05#8
  | .illegalCommand => 0x06#8
  | .address => 0x07#8
  | .overlap => 0x08#8

/-- STATUS as the host reads it (R22): 31:16 reserved, 15:8 ERRCODE, 7:5 reserved, OVR, FATAL, ERR, DONE, BUSY. -/
def Status.toWord (st : Status) : Word :=
  0#16 ++ st.errcode.code ++ 0#3 ++ BitVec.ofBool st.ovr ++ BitVec.ofBool st.fatal ++ BitVec.ofBool st.err ++
    BitVec.ofBool st.done ++ BitVec.ofBool st.busy

/-- Acceptance (spec/40_control.md R68): BUSY 1, DONE, ERR 0, ERRCODE 0x00; OVR and FATAL unchanged. -/
def Status.accepted (st : Status) : Status :=
  { st with busy := true, done := false, err := false, errcode := .none }

/-- Completion without error (R72): BUSY 0, DONE 1; the rest unchanged. -/
def Status.completed (st : Status) : Status := { st with busy := false, done := true }

/-- Completion with error `code` (spec/60_exceptions.md R108): BUSY 0, DONE 1, ERR 1, ERRCODE the code; ALLOCATION
also sets FATAL (R109). -/
def Status.failed (st : Status) (code : ErrCode) : Status :=
  { st with busy := false, done := true, err := true, errcode := code, fatal := st.fatal || code == .allocation }

/-- A CMD write that is not accepted (R69): OVR 1. -/
def Status.overrun (st : Status) : Status := { st with ovr := true }

/-- A host write of `v` to STATUS (R23): OVR cleared when `v[4] = 1`, nothing else changed. -/
def Status.written (st : Status) (v : Word) : Status := { st with ovr := st.ovr && !v.getLsbD 4 }

/-- The engine state STATUS stands for (R32). -/
def Status.engine (st : Status) : EngineState :=
  if st.busy then .running else if st.fatal then .halted else .idle

/-- A command is accepted when BUSY = 0 and FATAL = 0 (R68, R69). -/
def Status.accepts (st : Status) : Bool := !st.busy && !st.fatal

end Sys2Proof.Machine
end

