-- ==== Sys2Proof/Machine/Ops.lean ====
section
/-! DEFINITION. The named operations the meanings share: numbers (spec/00_scope.md R7, R8), the data memory and its
regions (R10, spec/20_memory.md R38 to R45), acceptance of a command (spec/40_control.md R68, R69), completion without
error (R72), and completion with an error, BMPC's counterpart of taking an exception (spec/60_exceptions.md R108). -/

namespace Sys2Proof.Machine

/-! ## Numbers -/

/-- `s32(v)`: the two's-complement value of a 32-bit pattern (R7). -/
def s32 (v : Word) : Int := if v.toNat < 2 ^ 31 then (v.toNat : Int) else (v.toNat : Int) - 2 ^ 32

/-- `u32(v)`: a value cut to 32 bits (R7). -/
def u32 (n : Nat) : Word := BitVec.ofNat 32 n

/-- `sat32(v) = min(v, 2^32 − 1)` as a 32-bit value (R7). -/
def sat32 (n : Nat) : Word := BitVec.ofNat 32 (min n (2 ^ 32 - 1))

/-- `LEn(v)`: the n-byte little-endian encoding of `v` (R10, R86). -/
def leBytes : Nat → Nat → List Byte
  | 0, _ => []
  | n + 1, v => BitVec.ofNat 8 v :: leBytes n (v / 256)

/-! ## Data memory -/

/-- What an unlisted address of MEM reads as. DESIGN CHOICE (log 2): R39 leaves the content at power-up unspecified,
and a memory with any content is a list of its nonzero bytes. -/
def Memory.unlisted : Byte := 0x00#8

/-- `MEM[a]` (R10). -/
def Memory.read : Memory → Nat → Byte
  | [], _ => Memory.unlisted
  | (k, b) :: m, a => if a = k then b else Memory.read m a

/-- `MEM[a] <- b` (R10), keeping the canonical form. -/
def Memory.write : Memory → Nat → Byte → Memory
  | [], a, b => if b = Memory.unlisted then [] else [(a, b)]
  | (k, c) :: m, a, b =>
    if a < k then (if b = Memory.unlisted then (k, c) :: m else (a, b) :: (k, c) :: m)
    else if a = k then (if b = Memory.unlisted then m else (a, b) :: m)
    else (k, c) :: Memory.write m a b

/-- The canonical form: addresses strictly rising, no entry equal to what an unlisted address reads as. -/
abbrev Memory.wf (m : Memory) : Prop :=
  m.Pairwise (fun p q => p.1 < q.1) ∧ ∀ c ∈ m, c.2 ≠ Memory.unlisted

/-- Every listed address is one of the memory's `n` bytes. -/
abbrev Memory.below (m : Memory) (n : Nat) : Prop := ∀ c ∈ m, c.1 < n

/-- `MemRead(a, n)`: the little-endian value of the `n` bytes from `a` up (R10, R40). -/
def Memory.readLE (m : Memory) (a : Nat) : Nat → Nat
  | 0 => 0
  | n + 1 => (m.read a).toNat + 256 * Memory.readLE m (a + 1) n

/-- The byte writes of `MemWriteBytes(a, bs)` (R10). -/
def cellsAt : Nat → List Byte → List Host.Cell
  | _, [] => []
  | a, b :: bs => (a, b) :: cellsAt (a + 1) bs

/-- Apply collected writes in order (R70, R71). -/
def Memory.apply (m : Memory) (ws : List Host.Cell) : Memory := ws.foldl (fun m c => Memory.write m c.1 c.2) m

/-- `Pix(base, W, x, y)` (R12). -/
def Memory.pix (m : Memory) (base W x y : Nat) : Byte := m.read (base + y * W + x)

/-! ## Regions -/

/-- `valid(base, len)` (R44): the region lies in MEM, without wrap-around. -/
def validRegion (c : Config) (base len : Nat) : Bool := base + len ≤ c.memBytes

/-- `overlap((a, m), (b, n))` (R45): the two regions share a byte. -/
def overlaps (a m b n : Nat) : Bool := (0 < m && 0 < n) && (a < b + n && b < a + m)

/-- Address `x` is a byte of the region `(base, len)` (R44). -/
def inRegion (base len x : Nat) : Bool := base ≤ x && x < base + len

/-! ## Outcome of a command and completion -/

/-- The results a successful command leaves in OUT_WIDTH, OUT_HEIGHT and OUT_LEN (R72). -/
structure Out where
  w : Nat
  h : Nat
  len : Nat
  deriving DecidableEq, Repr

/-- The outcome of the command function `Run` (R70): `Ok(writes, w, h, len)`, where NOP gives no w, h, len (R74), or
`Err(code, info)`. -/
inductive Result where
  | ok (writes : List Host.Cell) (out : Option Out)
  | err (code : ErrCode) (info : Word)
  deriving DecidableEq, Repr

/-- One numbered check of a command: when it fails, `raise code(info)` (R11). -/
structure Check where
  fails : Bool
  code : ErrCode
  info : Word
  deriving DecidableEq, Repr

/-- The first check that fails (R106). -/
def firstFailure : List Check → Option Check
  | [] => none
  | c :: cs => if c.fails then some c else firstFailure cs

/-- OUT_* at a completion without error (R72); NOP leaves them (R74). -/
def Regs.withOut (r : Regs) : Option Out → Regs
  | none => r
  | some o => { r with outWidth := u32 o.w, outHeight := u32 o.h, outLen := u32 o.len }

/-- Completion without error (R72): the writes are applied, OUT_* set, BUSY 0, DONE 1. -/
def State.completeOk (s : State) (ws : List Host.Cell) (out : Option Out) : State :=
  { s with mem := s.mem.apply ws, regs := { s.regs.withOut out with status := s.regs.status.completed } }

/-- TAKING AN ERROR (R108, R109), BMPC's exception entry: no byte of MEM is written (R107), STATUS records the code,
ERRINFO the detail, OUT_* are zeroed. There is no vector, no saved program counter and no mode change. -/
def State.completeErr (s : State) (code : ErrCode) (info : Word) : State :=
  { s with regs := { s.regs with status := s.regs.status.failed code, errinfo := info, outWidth := 0#32,
                                 outHeight := 0#32, outLen := 0#32 } }

/-- PERFORM's completion with the outcome of `Run` (R70). -/
def State.complete (s : State) : Result → State
  | .ok ws out => s.completeOk ws out
  | .err code info => s.completeErr code info

/-! ## Acceptance: where the next command clears an error (R111) -/

/-- What acceptance latches (R33, R68). -/
def Regs.latched (r : Regs) (v : Word) : Latches :=
  { cmd := v, topdown := r.topdown, srcBase := r.srcBase, srcLen := r.srcLen, dstBase := r.dstBase, dstCap := r.dstCap,
    width := r.width, height := r.height }

/-- Acceptance of the word `v` (R68); the word is not decoded here. -/
def State.accept (s : State) (v : Word) : State :=
  { s with lat := s.regs.latched v, regs := { s.regs with status := s.regs.status.accepted, errinfo := 0#32 } }

/-- A host write of `v` to CMD: accepted when BUSY = 0 and FATAL = 0 (R68), else ignored with OVR set (R69). -/
def State.issue (s : State) (v : Word) : State :=
  if s.regs.status.accepts then s.accept v
  else { s with regs := { s.regs with status := s.regs.status.overrun } }

/-- The engine state (R32). -/
def State.engine (s : State) : EngineState := s.regs.status.engine

end Sys2Proof.Machine
end

