-- ==== Sys2Proof/Machine/Lanes.lean ====
section
/-! DEFINITION. The lane partition (spec/42_lanes.md R88 to R91). The parallel phase of a command runs over these
blocks; that no result depends on them (R92) is a statement, not a definition. -/

namespace Sys2Proof.Machine

/-- `Partition(s, e, T0)` (R88): contiguous blocks `[a, b)` of the row range `[s, e)` over `T0` lanes. -/
def partition (s e t0 : Nat) : List (Nat × Nat) :=
  if e ≤ s then []
  else
    let n := e - s
    let t := max 1 (min t0 n)
    let bs := n / t
    (List.range (t - 1)).map (fun k => (s + k * bs, s + (k + 1) * bs)) ++ [(s + (t - 1) * bs, e)]

/-- The rows of a block `[a, b)`, rising. -/
def blockRows (blk : Nat × Nat) : List Nat := List.range' blk.1 (blk.2 - blk.1)

/-- The parallel phase (R90, R91): each lane does the rows of its block; the join comes after the last block. -/
def parallelRows (s e t0 : Nat) (row : Nat → List Host.Cell) : List Host.Cell :=
  (partition s e t0).flatMap fun blk => (blockRows blk).flatMap row

end Sys2Proof.Machine
end

