-- ==== Sys2Proof/Machine/Operands.lean ====
section
/-! DEFINITION. The operands of the commands (spec/30_encoding.md R57): every one is a latched register (spec/00_scope.md
R9), an address, length or capacity unsigned, a width or height two's complement; and the checks the pixel-buffer
transforms share (spec/43_rotate.md R94). -/

namespace Sys2Proof.Machine

/-- `sb = lat.SRC_BASE`, unsigned (R57). -/
def State.sb (s : State) : Nat := s.lat.srcBase.toNat

/-- `sl = lat.SRC_LEN`, unsigned (R57). -/
def State.sl (s : State) : Nat := s.lat.srcLen.toNat

/-- `db = lat.DST_BASE`, unsigned (R57). -/
def State.db (s : State) : Nat := s.lat.dstBase.toNat

/-- `dc = lat.DST_CAP`, unsigned (R57). -/
def State.dc (s : State) : Nat := s.lat.dstCap.toNat

/-- `s32(lat.WIDTH)` (R57). -/
def State.latW (s : State) : Int := s32 s.lat.width

/-- `s32(lat.HEIGHT)` (R57). -/
def State.latH (s : State) : Int := s32 s.lat.height

/-- The width of the source pixel buffer, once `latW > 0` is checked. -/
def State.imgW (s : State) : Nat := s.latW.toNat

/-- The height of the source pixel buffer, once `latH > 0` is checked. -/
def State.imgH (s : State) : Nat := s.latH.toNat

/-- The sample (x, y) of the source pixel buffer (R12, R65). -/
def State.srcPix (s : State) (x y : Nat) : Byte := s.mem.pix s.sb s.imgW x y

/-- The transform checks of ROTCW, ROTCCW and BLUR, in order (R94). -/
def transformChecks (s : State) : List Check :=
  [ ⟨s.latW ≤ 0, .invalidDimension, 0#32⟩,
    ⟨s.latH ≤ 0, .invalidDimension, 1#32⟩,
    ⟨!validRegion s.cfg s.sb (s.imgW * s.imgH), .address, 0#32⟩,
    ⟨!validRegion s.cfg s.db s.dc, .address, 1#32⟩,
    ⟨s.dc < s.imgW * s.imgH, .allocation, sat32 (s.imgW * s.imgH)⟩,
    ⟨overlaps s.sb (s.imgW * s.imgH) s.db (s.imgW * s.imgH), .overlap, 0#32⟩ ]

end Sys2Proof.Machine
end

