-- ==== Sys2Proof/Machine/Blur.lean ====
section
/-! DEFINITION. The 5×5 Gaussian convolution engine: BLUR (spec/44_blur.md R99 to R101, spec/10_state.md R35). -/

namespace Sys2Proof.Machine

/-- The kernel K, row by row (R35). -/
def kernel : List (List Nat) :=
  [ [1,  4,  7,  4, 1],
    [4, 16, 26, 16, 4],
    [7, 26, 41, 26, 7],
    [4, 16, 26, 16, 4],
    [1,  4,  7,  4, 1] ]

/-- `K[j][i]` (R35). -/
def kernelAt (j i : Nat) : Nat := (kernel.getD j []).getD i 0

/-- The divisor KSUM (R35). -/
def ksum : Nat := 273

/-- Border pixel of a W×H buffer (R99). -/
def isBorder (w h x y : Nat) : Bool := x < 2 || y < 2 || w ≤ x + 2 || h ≤ y + 2

/-- `mac(x, y)` over a sample function `p` (R100): Σ_j Σ_i K[j][i] · p(x + i − 2, y + j − 2). -/
def mac (p : Nat → Nat → Byte) (x y : Nat) : Nat :=
  ((List.range 5).map fun j =>
    ((List.range 5).map fun i => kernelAt j i * (p (x + i - 2) (y + j - 2)).toNat).sum).sum

/-- `gauss(x, y) = mac(x, y) div 273` (R100). -/
def gauss (p : Nat → Nat → Byte) (x y : Nat) : Byte := BitVec.ofNat 8 (mac p x y / ksum)

/-- The sample BLUR leaves at (x, y): a border pixel copied, an interior pixel filtered (R99, R101). -/
def blurredPix (s : State) (x y : Nat) : Byte :=
  if isBorder s.imgW s.imgH x y then s.srcPix x y else gauss s.srcPix x y

/-- The interior pass on row `y`: x in [2, W − 2) (R101). -/
def blurInteriorRow (s : State) (y : Nat) : List Host.Cell :=
  (List.range' 2 (s.imgW - 4)).map fun x => (s.db + y * s.imgW + x, gauss s.srcPix x y)

/-- The border pass on row `y` (R101). -/
def blurBorderRow (s : State) (y : Nat) : List Host.Cell :=
  ((List.range s.imgW).filter fun x => isBorder s.imgW s.imgH x y).map fun x =>
    (s.db + y * s.imgW + x, s.srcPix x y)

/-- `Run` of BLUR (R101): the interior rows `[2, H − 2)` shared over the lanes, then the border pass by one lane
(R90). -/
def runBlur (s : State) : Result :=
  match firstFailure (transformChecks s) with
  | some c => .err c.code c.info
  | none =>
    .ok (parallelRows 2 (s.imgH - 2) s.cfg.numLanes (blurInteriorRow s) ++ (List.range s.imgH).flatMap (blurBorderRow s))
      (some ⟨s.imgW, s.imgH, s.imgW * s.imgH⟩)

/-- PERFORM of BLUR. -/
def execBlur (s : State) : Host.Outcome State Fault Refusal := .next (s.complete (runBlur s))

end Sys2Proof.Machine
end

