-- ==== Sys2Proof/Machine/Codec.lean ====
section
/-! DEFINITION. The BMP codec: stride calculator, luma accumulator, header parser, DECODE, header generator, ENCODE
(spec/41_codec.md R78 to R87, spec/30_encoding.md R60 to R64). -/

namespace Sys2Proof.Machine

/-- The row stride of `n`-byte pixels (R78). -/
def stride (w n : Nat) : Nat := 4 * ((w * n + 3) / 4)

/-- The luma-weight accumulator (R36, R80): `(30·R + 59·G + 11·B) div 100`, exact. -/
def luma (r g b : Byte) : Byte := BitVec.ofNat 8 ((30 * r.toNat + 59 * g.toNat + 11 * b.toNat) / 100)

/-! ## DECODE -/

/-- The fields the header parser reads (R82); no other header byte is read. -/
structure Header where
  sig : Nat
  off : Nat
  wfld : Word
  hfld : Word
  bpp : Nat
  comp : Nat
  deriving DecidableEq, Repr

/-- The header parser on the file image at `sb` (R82). -/
def parseHeader (m : Memory) (sb : Nat) : Header :=
  { sig := m.readLE (sb + 0) 2
    off := m.readLE (sb + 10) 4
    wfld := u32 (m.readLE (sb + 18) 4)
    hfld := u32 (m.readLE (sb + 22) 4)
    bpp := m.readLE (sb + 28) 2
    comp := m.readLE (sb + 30) 4 }

/-- `W = s32(wfld)` (R83). -/
def Header.w (h : Header) : Int := s32 h.wfld

/-- `Hs = s32(hfld)` (R83). -/
def Header.hs (h : Header) : Int := s32 h.hfld

/-- The width as a count, once `W > 0` is checked. -/
def Header.wn (h : Header) : Nat := h.w.toNat

/-- `H = |Hs|`, exact (R83, R8). -/
def Header.hn (h : Header) : Nat := h.hs.natAbs

/-- The stored row of buffer row `y` (R84). -/
def storedRow (hs : Int) (topdown : Bool) (y : Nat) : Nat :=
  if hs < 0 ∧ topdown = true then y else hs.natAbs - 1 - y

/-- The header of the running DECODE's file image. -/
def State.header (s : State) : Header := parseHeader s.mem s.sb

/-- `need = off + S·H`: the file length the pixel rows need (R85 check 9). -/
def Header.need (h : Header) : Nat := h.off + stride h.wn 3 * h.hn

/-- The checks of DECODE, in order (R85). -/
def decodeChecks (s : State) : List Check :=
  [ ⟨!validRegion s.cfg s.sb s.sl, .fileOpen, 0#32⟩,
    ⟨!validRegion s.cfg s.db s.dc, .address, 1#32⟩,
    ⟨s.sl < 2 || s.header.sig != 0x4D42, .invalidFormat, 0#32⟩,
    ⟨s.sl < 54, .truncatedData, 54#32⟩,
    ⟨s.header.bpp != 24, .invalidFormat, 28#32⟩,
    ⟨s.header.comp != 0, .invalidFormat, 30#32⟩,
    ⟨s.header.w ≤ 0, .invalidDimension, 0#32⟩,
    ⟨s.header.hs == 0 || s.header.hs == -2 ^ 31, .invalidDimension, 1#32⟩,
    ⟨s.sl < s.header.need, .truncatedData, sat32 s.header.need⟩,
    ⟨s.dc < s.header.wn * s.header.hn, .allocation, sat32 (s.header.wn * s.header.hn)⟩,
    ⟨overlaps s.sb s.sl s.db (s.header.wn * s.header.hn), .overlap, 0#32⟩ ]

/-- The gray sample of buffer pixel (x, y) (R62, R84, R85): the luma of the stored B, G, R bytes. -/
def decodedPix (s : State) (x y : Nat) : Byte :=
  let h := s.header
  let p := s.sb + h.off + storedRow h.hs s.lat.topdown y * stride h.wn 3 + 3 * x
  luma (s.mem.read (p + 2)) (s.mem.read (p + 1)) (s.mem.read p)

/-- The writes of buffer row `y` (R85). -/
def decodeRow (s : State) (y : Nat) : List Host.Cell :=
  (List.range s.header.wn).map fun x => (s.db + y * s.header.wn + x, decodedPix s x y)

/-- `Run` of DECODE (R85, R90: rows `[0, H)` shared over the lanes). -/
def runDecode (s : State) : Result :=
  match firstFailure (decodeChecks s) with
  | some c => .err c.code c.info
  | none =>
    .ok (parallelRows 0 s.header.hn s.cfg.numLanes (decodeRow s))
      (some ⟨s.header.wn, s.header.hn, s.header.wn * s.header.hn⟩)

/-- PERFORM of DECODE. -/
def execDecode (s : State) : Host.Outcome State Fault Refusal := .next (s.complete (runDecode s))

/-! ## ENCODE -/

/-- `isz = S8·H` (R86). -/
def imageSize (w h : Nat) : Nat := stride w 1 * h

/-- `fsz = 1078 + isz` (R86). -/
def fileSize (w h : Nat) : Nat := 1078 + imageSize w h

/-- The header fields in file order, each as its size in bytes and its value (R86). -/
def headerFields (w h : Nat) : List (Nat × Nat) :=
  [ (2, 0x4D42), (4, fileSize w h), (2, 0), (2, 0), (4, 1078),
    (4, 40), (4, w), (4, h), (2, 1), (2, 8), (4, 0), (4, imageSize w h), (4, 0), (4, 0), (4, 256), (4, 0) ]

/-- The bytes of a run of little-endian fields (R10). -/
def fieldBytes (fs : List (Nat × Nat)) : List Byte := fs.flatMap fun f => leBytes f.1 f.2

/-- The header generator: the 54 bytes of R86. -/
def encodeHeader (w h : Nat) : List Byte := fieldBytes (headerFields w h)

/-- Entry `i` of the palette: i, i, i, 0 (R37, R64). -/
def paletteEntry (i : Nat) : List Byte := [BitVec.ofNat 8 i, BitVec.ofNat 8 i, BitVec.ofNat 8 i, 0x00#8]

/-- The bytes of stored row `r`: image row `H − 1 − r`, zero-padded to the stride (R63, R87). -/
def encodeRow (s : State) (r : Nat) : List Byte :=
  (List.range s.imgW).map (fun x => s.srcPix x (s.imgH - 1 - r)) ++
    List.replicate (stride s.imgW 1 - s.imgW) 0x00#8

/-- The checks of ENCODE, in order (R87). -/
def encodeChecks (s : State) : List Check :=
  [ ⟨s.latW ≤ 0, .invalidDimension, 0#32⟩,
    ⟨s.latH ≤ 0, .invalidDimension, 1#32⟩,
    ⟨!validRegion s.cfg s.sb (s.imgW * s.imgH), .address, 0#32⟩,
    ⟨!validRegion s.cfg s.db s.dc, .fileOpen, 1#32⟩,
    ⟨s.dc < fileSize s.imgW s.imgH, .fileOpen, 1#32⟩,
    ⟨overlaps s.sb (s.imgW * s.imgH) s.db (fileSize s.imgW s.imgH), .overlap, 0#32⟩ ]

/-- The writes of ENCODE (R87): header, palette, rows, by one lane (R90). -/
def encodeWrites (s : State) : List Host.Cell :=
  cellsAt s.db (encodeHeader s.imgW s.imgH) ++
  (List.range 256).flatMap (fun i => cellsAt (s.db + 54 + 4 * i) (paletteEntry i)) ++
  (List.range s.imgH).flatMap (fun r => cellsAt (s.db + 1078 + r * stride s.imgW 1) (encodeRow s r))

/-- `Run` of ENCODE (R87); lat.TOPDOWN is not read. -/
def runEncode (s : State) : Result :=
  match firstFailure (encodeChecks s) with
  | some c => .err c.code c.info
  | none => .ok (encodeWrites s) (some ⟨s.imgW, s.imgH, fileSize s.imgW s.imgH⟩)

/-- PERFORM of ENCODE. -/
def execEncode (s : State) : Host.Outcome State Fault Refusal := .next (s.complete (runEncode s))

end Sys2Proof.Machine
end

