-- ==== Sys2Proof/WellFormed.lean ====
section
/-! DEFINITION. What a well-formed command, command word, host operation and configuration are. A command has no
operand field, so every term of Instr is well-formed; the checks that can fail are on the words (spec/30_encoding.md
R55, R58), on the host's operations (spec/10_state.md R17, spec/20_memory.md R38) and on the parameters (R6:
`Config.ok`). -/

namespace Sys2Proof

open Machine

/-- Every command is well-formed: it has no operand (R55). -/
def Instr.wellFormed : Instr → Bool
  | .nop => true
  | .decode => true
  | .encode => true
  | .rotcw => true
  | .rotccw => true
  | .blur => true

/-- A command word is legal when RSVD (31:8) is 0 and OP (7:0) is at most 0x05 (R55, R58). -/
def legalWord (w : Word) : Bool := w.extractLsb 31 8 == 0#24 && (w.extractLsb 7 0).toNat ≤ 5

/-- A register access a host may make: inside the 256-byte window, 4 bytes wide, at an offset that is a multiple of 4
(R16, R17). -/
def registerAccessWellFormed (c : Config) (addr width : Nat) : Bool :=
  (c.regBase ≤ addr && addr < c.regBase + 256) && (width == 4 && (addr - c.regBase) % 4 == 0)

/-- A host operation that no form check stops: a legal register access, or bytes that exist (R38). -/
def Machine.HostOp.wellFormed (c : Config) : HostOp → Bool
  | .write addr width _ => registerAccessWellFormed c addr width
  | .read addr width _ => registerAccessWellFormed c addr width
  | .poll addr _ _ => registerAccessWellFormed c addr 4
  | .memWrite addr bs => addr + bs.length ≤ c.memBytes
  | .memRead addr n _ _ => addr + n ≤ c.memBytes

end Sys2Proof
end

