-- ==== Sys2Proof/Decode.lean ====
section
/-! DEFINITION. The command word: decoder, encoder (spec/30_encoding.md R55, R56, R58, R59). -/

namespace Sys2Proof

/-- The OP field, bits 7:0 (R55). -/
def opField (w : Word) : BitVec 8 := w.extractLsb 7 0

/-- The RSVD field, bits 31:8 (R55). -/
def rsvdField (w : Word) : BitVec 24 := w.extractLsb 31 8

/-- Why a word is illegal (R58). -/
inductive IllegalWord where
  /-- RSVD ≠ 0, whatever OP is. -/
  | reservedBits (rsvd : BitVec 24)
  /-- RSVD = 0 and OP is 0x06 to 0xFF. -/
  | reservedOp (op : BitVec 8)
  deriving DecidableEq, Repr

/-- What the decoder answers on a word. -/
inductive Decoded where
  | instr (i : Instr)
  | illegal (why : IllegalWord)
  deriving DecidableEq, Repr

/-- A row of the opcode table: a word matches when `word & mask = value`. -/
structure OpcodeRow where
  instr : Instr
  value : Word
  mask : Word
  deriving DecidableEq, Repr

/-- The table of R56 and spec/opcode_table.json, row by row. -/
def opcodeTable : List OpcodeRow :=
  [ ⟨.nop,    0x00000000#32, 0xFFFFFFFF#32⟩,
    ⟨.decode, 0x00000001#32, 0xFFFFFFFF#32⟩,
    ⟨.encode, 0x00000002#32, 0xFFFFFFFF#32⟩,
    ⟨.rotcw,  0x00000003#32, 0xFFFFFFFF#32⟩,
    ⟨.rotccw, 0x00000004#32, 0xFFFFFFFF#32⟩,
    ⟨.blur,   0x00000005#32, 0xFFFFFFFF#32⟩ ]

/-- Why a word no row matches is illegal (R58): a nonzero RSVD is named before OP. -/
def illegalReason (w : Word) : IllegalWord :=
  if rsvdField w = 0#24 then .reservedOp (opField w) else .reservedBits (rsvdField w)

/-- The decoder (R56, R71): the row whose word equals `w` exactly; every other word is illegal. -/
def decode (w : Word) : Decoded :=
  match opcodeTable.find? (fun r => w &&& r.mask == r.value) with
  | some r => .instr r.instr
  | none => .illegal (illegalReason w)

/-- The operation code of each command (R56, column OP). -/
def opOf : Instr → BitVec 8
  | .nop => 0x00#8
  | .decode => 0x01#8
  | .encode => 0x02#8
  | .rotcw => 0x03#8
  | .rotccw => 0x04#8
  | .blur => 0x05#8

/-- The encoder (R55): RSVD = 0 above OP. -/
def encode (i : Instr) : Word := 0#24 ++ opOf i

/-- The instruction the decoder reads from the `nbits` table bits `w` (bits above are 0). A command is one 32-bit
word (R59), so no longer word has a meaning. -/
def decodeTableWord (nbits w : Nat) : Option Instr :=
  if nbits ≤ 32 ∧ w < 2 ^ 32 then
    match decode (BitVec.ofNat 32 w) with
    | .instr i => some i
    | .illegal _ => none
  else none

end Sys2Proof
end

