-- ==== Sys2Proof/Machine/Control.lean ====
section
/-! DEFINITION. NOP and illegal command words (spec/40_control.md R74, R75). -/

namespace Sys2Proof.Machine

/-- `Run` of NOP (R74): no check, no write, no result. -/
def runNop (_ : State) : Result := .ok [] none

/-- PERFORM of NOP (R74). -/
def execNop (s : State) : Host.Outcome State Fault Refusal := .next (s.complete (runNop s))

/-- `Run` of an illegal word (R75): `raise ILLEGAL_COMMAND(lat.CMD)`. -/
def runIllegal (s : State) : Result := .err .illegalCommand s.lat.cmd

/-- PERFORM of an accepted word that is not one of the six (R71, R75). -/
def execIllegal (s : State) : Host.Outcome State Fault Refusal := .next (s.complete (runIllegal s))

end Sys2Proof.Machine
end

