-- ==== Sys2Proof/Machine/Rotate.lean ====
section
/-! DEFINITION. The 90° rotation permutation unit: ROTCW and ROTCCW (spec/43_rotate.md R94 to R97). -/

namespace Sys2Proof.Machine

/-- The ROTCW map: source (x, y) of a buffer of height `h` goes to index `x·H + (H − 1 − y)` (R95, R97). -/
def cwIndex (h x y : Nat) : Nat := x * h + (h - 1 - y)

/-- The ROTCCW map: source (x, y) goes to index `(W − 1 − x)·H + y` (R96, R97). -/
def ccwIndex (w h x y : Nat) : Nat := (w - 1 - x) * h + y

/-- The writes of source row `y` under an index map (R95, R96). -/
def rotateRow (s : State) (index : Nat → Nat → Nat) (y : Nat) : List Host.Cell :=
  (List.range s.imgW).map fun x => (s.db + index x y, s.srcPix x y)

/-- `Run` of a rotation: the transform checks, then source rows `[0, H)` shared over the lanes; the dimensions swap
(R90, R94 to R96). -/
def runRotate (s : State) (index : Nat → Nat → Nat) : Result :=
  match firstFailure (transformChecks s) with
  | some c => .err c.code c.info
  | none =>
    .ok (parallelRows 0 s.imgH s.cfg.numLanes (rotateRow s index)) (some ⟨s.imgH, s.imgW, s.imgW * s.imgH⟩)

/-- `Run` of ROTCW (R95). -/
def runRotcw (s : State) : Result := runRotate s (cwIndex s.imgH)

/-- `Run` of ROTCCW (R96). -/
def runRotccw (s : State) : Result := runRotate s (ccwIndex s.imgW s.imgH)

/-- PERFORM of ROTCW. -/
def execRotcw (s : State) : Host.Outcome State Fault Refusal := .next (s.complete (runRotcw s))

/-- PERFORM of ROTCCW. -/
def execRotccw (s : State) : Host.Outcome State Fault Refusal := .next (s.complete (runRotccw s))

end Sys2Proof.Machine
end

