-- ==== Sys2Proof/Machine/Dispatch.lean ====
section
/-! DEFINITION. One arm per command (spec/40_control.md R71). -/

namespace Sys2Proof.Machine

def exec (i : Instr) (s : State) : Host.Outcome State Fault Refusal :=
  match i with
  | .nop => Sys2Proof.Machine.execNop s
  | .decode => Sys2Proof.Machine.execDecode s
  | .encode => Sys2Proof.Machine.execEncode s
  | .rotcw => Sys2Proof.Machine.execRotcw s
  | .rotccw => Sys2Proof.Machine.execRotccw s
  | .blur => Sys2Proof.Machine.execBlur s

end Sys2Proof.Machine
end

