-- ==== Sys2Proof/Machine/Regions.lean ====
section
/-! DEFINITION. The command function `Run` on the latches and MEM (spec/40_control.md R70, R71), and the regions and the
lane partition of a running command that follow from it (spec/20_memory.md R46, spec/70_reset_and_hazards.md R125,
spec/42_lanes.md R90). -/

namespace Sys2Proof.Machine

/-- `Run` of a legal command. -/
def runInstr (i : Instr) (s : State) : Result :=
  match i with
  | .nop => runNop s
  | .decode => runDecode s
  | .encode => runEncode s
  | .rotcw => runRotcw s
  | .rotccw => runRotccw s
  | .blur => runBlur s

/-- `Run(lat, MEM)` (R71). -/
def runCommand (s : State) : Result :=
  match decode s.lat.cmd with
  | .instr i => runInstr i s
  | .illegal _ => runIllegal s

/-- The written region of an outcome: `(DST_BASE, OUT_LEN)` of a success, empty for an error and for NOP (R46, R107). -/
def Result.writtenLen : Result → Nat
  | .ok _ (some o) => o.len
  | .ok _ none => 0
  | .err _ _ => 0

/-- Address `a` is in the destination written region of the latched command (R46, R125). -/
def State.inWritten (s : State) (a : Nat) : Bool := inRegion s.db (runCommand s).writtenLen a

/-- The length of the source region of a command (R125): the file for DECODE, the W·H-byte buffer for the others; no
byte for NOP and, DESIGN CHOICE (log 11), for a width or height that is not positive. -/
def sourceLen (i : Instr) (s : State) : Nat :=
  match i with
  | .nop => 0
  | .decode => s.sl
  | .encode => s.imgW * s.imgH
  | .rotcw => s.imgW * s.imgH
  | .rotccw => s.imgW * s.imgH
  | .blur => s.imgW * s.imgH

/-- The length of the source region of the latched word; an illegal word has none (R75). -/
def State.commandSourceLen (s : State) : Nat :=
  match decode s.lat.cmd with
  | .instr i => sourceLen i s
  | .illegal _ => 0

/-- Address `a` is in the source region of the latched command (R125). -/
def State.inSource (s : State) (a : Nat) : Bool := inRegion s.sb s.commandSourceLen a

/-- A host access to byte `a` is a race (R49 (c), R125). -/
def State.races (s : State) (a : Nat) : Bool := s.regs.status.busy && (s.inSource a || s.inWritten a)

/-- The lane partition of the running command (R33, R88, R90): a view of the latches, MEM and NUM_LANES, empty when the
engine is not running, when the command ends with an error in phase 1, and for a command with no parallel phase. -/
def State.lanePartition (s : State) : List (Nat × Nat) :=
  match s.regs.status.busy, decode s.lat.cmd, runCommand s with
  | true, .instr .decode, .ok _ _ => partition 0 s.header.hn s.cfg.numLanes
  | true, .instr .rotcw, .ok _ _ => partition 0 s.imgH s.cfg.numLanes
  | true, .instr .rotccw, .ok _ _ => partition 0 s.imgH s.cfg.numLanes
  | true, .instr .blur, .ok _ _ => partition 2 (s.imgH - 2) s.cfg.numLanes
  | _, _, _ => []

end Sys2Proof.Machine
end

