-- ==== Sys2Proof/Machine/Window.lean ====
section
/-! DEFINITION. The register window (spec/10_state.md R16 to R31): which register stands at an offset, what a host read
returns, what a host write does. -/

namespace Sys2Proof.Machine

/-- The fifteen named registers (R16). -/
inductive Reg where
  | id | lanes | ctrl | cmd | status | errinfo | srcBase | srcLen | dstBase | dstCap | width | height | outWidth
  | outHeight | outLen
  deriving DecidableEq, Repr

/-- The offset of a named register (R16). -/
def Reg.offset : Reg → Nat
  | .id => 0x00
  | .lanes => 0x04
  | .ctrl => 0x08
  | .cmd => 0x0C
  | .status => 0x10
  | .errinfo => 0x14
  | .srcBase => 0x18
  | .srcLen => 0x1C
  | .dstBase => 0x20
  | .dstCap => 0x24
  | .width => 0x28
  | .height => 0x2C
  | .outWidth => 0x30
  | .outHeight => 0x34
  | .outLen => 0x38

/-- The registers in the order of R16's table. -/
def Reg.all : List Reg :=
  [.id, .lanes, .ctrl, .cmd, .status, .errinfo, .srcBase, .srcLen, .dstBase, .dstCap, .width, .height, .outWidth,
   .outHeight, .outLen]

/-- The register at an offset; none at a reserved one (R16). -/
def Reg.at? (off : Nat) : Option Reg := Reg.all.find? fun r => r.offset == off

/-- ID reads 0x424D4331 at all times (R18). -/
def idWord : Word := 0x424D4331#32

/-- CTRL as the host reads it (R20): TOPDOWN in bit 0, bits 31:1 read 0. -/
def ctrlWord (topdown : Bool) : Word := 0#31 ++ BitVec.ofBool topdown

/-- What a read of a register returns. -/
def State.readReg (s : State) : Reg → Word
  | .id => idWord
  | .lanes => u32 s.cfg.numLanes
  | .ctrl => ctrlWord s.regs.topdown
  | .cmd => 0#32
  | .status => s.regs.status.toWord
  | .errinfo => s.regs.errinfo
  | .srcBase => s.regs.srcBase
  | .srcLen => s.regs.srcLen
  | .dstBase => s.regs.dstBase
  | .dstCap => s.regs.dstCap
  | .width => s.regs.width
  | .height => s.regs.height
  | .outWidth => s.regs.outWidth
  | .outHeight => s.regs.outHeight
  | .outLen => s.regs.outLen

/-- What a host write of `v` to a register does: nothing to a read-only one (R17), a command issue to CMD (R21). -/
def State.writeReg (s : State) (r : Reg) (v : Word) : State :=
  match r with
  | .id => s
  | .lanes => s
  | .ctrl => { s with regs := { s.regs with topdown := v.getLsbD 0 } }
  | .cmd => s.issue v
  | .status => { s with regs := { s.regs with status := s.regs.status.written v } }
  | .errinfo => s
  | .srcBase => { s with regs := { s.regs with srcBase := v } }
  | .srcLen => { s with regs := { s.regs with srcLen := v } }
  | .dstBase => { s with regs := { s.regs with dstBase := v } }
  | .dstCap => { s with regs := { s.regs with dstCap := v } }
  | .width => { s with regs := { s.regs with width := v } }
  | .height => { s with regs := { s.regs with height := v } }
  | .outWidth => s
  | .outHeight => s
  | .outLen => s

/-- A host read at an offset of the window; a reserved one reads 0 (R17). -/
def State.readOffset (s : State) (off : Nat) : Word :=
  match Reg.at? off with
  | some r => s.readReg r
  | none => 0#32

/-- A host write at an offset of the window; at a reserved one it is ignored (R17). -/
def State.writeOffset (s : State) (off : Nat) (v : Word) : State :=
  match Reg.at? off with
  | some r => s.writeReg r v
  | none => s

end Sys2Proof.Machine
end

