-- ==== Sys2Proof/Machine/HostBus.lean ====
section
/-! DEFINITION. One step of the host (spec/00_scope.md R5): the first transaction of its program (spec/30_encoding.md
R66), with the accesses a model refuses (spec/60_exceptions.md R113). -/

namespace Sys2Proof.Machine

/-- The name of the answer of every step here. -/
abbrev Answer := Host.Outcome State Fault Refusal

/-- Why a register access of `width` bytes at bus address `addr` has no meaning, if it has none (R16, R17, R124). -/
def windowRefusal (c : Config) (addr width : Nat) : Option Refusal :=
  if addr < c.regBase ∨ c.regBase + 256 ≤ addr then some (.outsideWindow addr)
  else if width ≠ 4 ∨ (addr - c.regBase) % 4 ≠ 0 then some (.badRegisterAccess addr width)
  else none

/-- A host register access: refused by form, else done at the offset. -/
def State.atOffset (s : State) (addr width : Nat) (act : Nat → Answer) : Answer :=
  match windowRefusal s.cfg addr width with
  | some r => .refused r
  | none => act (addr - s.cfg.regBase)

/-- A host access to byte `a` of MEM: no such byte (R38, log 8), a race (R125), else done. -/
def State.atMemByte (s : State) (a : Nat) (act : Answer) : Answer :=
  if s.cfg.memBytes ≤ a then .fault (.noSuchMemByte a)
  else if s.races a then .refused (.race a)
  else act

/-- The value of host variable `x`, if bound. -/
def HostAgent.lookup (h : HostAgent) (x : Nat) : Option HostVal := h.vars.lookup x

/-- Bind host variable `x` (R66); an earlier binding goes. -/
def HostAgent.bind (h : HostAgent) (x : Nat) (v : HostVal) : HostAgent :=
  { h with vars := (x, v) :: h.vars.filter (fun p => p.1 != x) }

/-- The host's program from here on. -/
def State.withProg (s : State) (p : List HostOp) : State := { s with host := { s.host with prog := p } }

/-- Bind a host variable in the state. -/
def State.bindVar (s : State) (x : Nat) (v : HostVal) : State := { s with host := s.host.bind x v }

/-- The word a variable's value is, if it is one. -/
def HostVal.word? : HostVal → Option Word
  | .word w => some w
  | .bytes _ => none

/-- The word a register write carries: a number or, as in CHAIN (R67), a host variable that holds a word. -/
def HostAgent.word (h : HostAgent) : HostArg → Option Word
  | .lit v => some v
  | .var x => (h.lookup x).bind HostVal.word?

/-- `WR` (R66); `s` is the state with the operation already taken off the program. -/
def State.hostWrite (s : State) (addr width : Nat) (arg : HostArg) : Answer :=
  s.atOffset addr width fun off =>
    match s.host.word arg with
    | some v => .next (s.writeOffset off v)
    | none => .refused (.unboundHostVariable arg)

/-- `RD` (R66). -/
def State.hostRead (s : State) (addr width x : Nat) : Answer :=
  s.atOffset addr width fun off => .next (s.bindVar x (.word (s.readOffset off)))

/-- `POLL` (R66): one read; the operation stays on the program (`s` still holds it) until the condition holds. -/
def State.hostPoll (s : State) (rest : List HostOp) (addr : Nat) (mask v : Word) : Answer :=
  s.atOffset addr 4 fun off =>
    if s.readOffset off &&& mask = v then .next (s.withProg rest) else .next s

/-- `MW` (R66): one byte write; the bytes still to come stay on the program. -/
def State.hostMemWrite (s : State) (rest : List HostOp) (addr : Nat) : List Byte → Answer
  | [] => .next (s.withProg rest)
  | b :: bs =>
    s.atMemByte addr
      (.next ({ s with mem := s.mem.write addr b }.withProg
        (if bs = [] then rest else .memWrite (addr + 1) bs :: rest)))

/-- `MR` (R66): one byte read; at the end the bytes are bound to the variable. -/
def State.hostMemRead (s : State) (rest : List HostOp) (addr : Nat) (n x : Nat) (got : List Byte) : Answer :=
  match n with
  | 0 => .next ((s.withProg rest).bindVar x (.bytes got))
  | k + 1 =>
    s.atMemByte addr
      (if k = 0 then .next ((s.withProg rest).bindVar x (.bytes (got ++ [s.mem.read addr])))
       else .next (s.withProg (.memRead (addr + 1) k x (got ++ [s.mem.read addr]) :: rest)))

/-- One step of the host: the first operation of its program; with none pending it waits. -/
def hostStep (s : State) : Answer :=
  match s.host.prog with
  | [] => .next s
  | .write addr width v :: rest => (s.withProg rest).hostWrite addr width v
  | .read addr width x :: rest => (s.withProg rest).hostRead addr width x
  | .poll addr mask v :: rest => s.hostPoll rest addr mask v
  | .memWrite addr bs :: rest => s.hostMemWrite rest addr bs
  | .memRead addr n x got :: rest => s.hostMemRead rest addr n x got

end Sys2Proof.Machine
end

