-- ==== Sys2Proof/Machine/Reset.lean ====
section
/-! DEFINITION. The reset input (spec/70_reset_and_hazards.md R120, R121). -/

namespace Sys2Proof.Machine

/-- The latches after the reset input: unspecified (R33, R120), so free values of draw number `d` (log 4). -/
def freeLatches (d : Nat) : Latches :=
  { cmd := Config.freeWord d 0, topdown := Config.freeBit d, srcBase := Config.freeWord d 1,
    srcLen := Config.freeWord d 2, dstBase := Config.freeWord d 3, dstCap := Config.freeWord d 4,
    width := Config.freeWord d 5, height := Config.freeWord d 6 }

/-- The draw of R121: each byte of the region `(base, len)` takes a free value of draw number `d`. -/
def freeCells (d base len : Nat) : List Host.Cell :=
  (List.range len).map fun k => (base + k, Config.freeByte d (base + k))

/-- MEM after the reset input: unchanged when the engine is not running (R39, R120); when it is, the command is
abandoned and its destination written region takes unspecified bytes (R121). -/
def State.memAfterReset (s : State) : Memory :=
  if s.regs.status.busy then s.mem.apply (freeCells s.draws s.db (runCommand s).writtenLen) else s.mem

/-- Asserting reset (R120): every register takes its reset value, the latches are unspecified, no completion happens.
The host is outside the block: its program, its variables and the schedule stay (log 5). -/
def State.resetInput (s : State) : State :=
  { s with regs := Regs.reset, lat := freeLatches s.draws, mem := s.memAfterReset, draws := s.draws + 1 }

end Sys2Proof.Machine
end

