-- ==== Sys2Proof/Machine/Engine.lean ====
section
/-! DEFINITION. The engine's step PERFORM (spec/40_control.md R70, R71), and whose turn the next step is. -/

namespace Sys2Proof.Machine

/-- PERFORM: decode `lat.CMD` and complete the command in one transition (R70, R71). -/
def perform (s : State) : Answer :=
  match decode s.lat.cmd with
  | .instr i => exec i s
  | .illegal _ => execIllegal s

/-- A turn of the engine: PERFORM when BUSY = 1, nothing else is enabled (R70, R119). -/
def engineStep (s : State) : Answer := if s.regs.status.busy then perform s else .next s

/-- Whose turn is next (log 5): the schedule says; when it is used up, the engine if it is running (R73), else the
host. -/
def State.turn (s : State) : Turn :=
  match s.sched with
  | t :: _ => t
  | [] => if s.regs.status.busy then .engine else .host

/-- The state with this step's turn taken off the schedule. -/
def State.takeTurn (s : State) : State := { s with sched := s.sched.tail }

/-- The step of one agent, or the reset input. -/
def agentStep (t : Turn) (s : State) : Answer :=
  match t with
  | .host => hostStep s
  | .engine => engineStep s
  | .reset => .next s.resetInput

/-- The table bits of a command word: `nbits` of them, at most 32 (R55, R59). -/
def tableWord (nbits w : Nat) : Word := BitVec.ofNat 32 (w % 2 ^ min nbits 32)

/-- The state in which the word is the accepted command (R68) of a RUNNING engine and the next turn is the engine's
(log 10). The registers and MEM are as they were, so the command's operands are the parameter registers. -/
def State.acceptedNext (s : State) (v : Word) : State :=
  let t := s.accept v
  { t with regs := { t.regs with status := { t.regs.status with fatal := false } }, sched := .engine :: s.sched }

end Sys2Proof.Machine
end

