-- ==== Sys2Proof/Machine/Step.lean ====
section
/-! DEFINITION. One step of the whole machine: the agent whose turn it is (spec/00_scope.md R5, spec/60_exceptions.md
R106). -/

namespace Sys2Proof.Machine

/-- One step. -/
def step (s : State) : Host.Outcome State Fault Refusal := agentStep s.turn s.takeTurn

/-- The state in which the next step performs the command word of table bits `w` (log 10). -/
def State.withFetchWord (s : State) (nbits w : Nat) : State := s.acceptedNext (tableWord nbits w)

end Sys2Proof.Machine
end

