-- ==== Sys2Proof/Machine/HostProgram.lean ====
section
/-! DEFINITION. The host program syntax (spec/30_encoding.md R66, R67): the named operations and the expansions of the
pseudo-operations into host transactions. -/

namespace Sys2Proof.Machine

/-- The bus address of a register: `REG_BASE + offset` (R66). -/
def regAddr (c : Config) (r : Reg) : Nat := c.regBase + r.offset

/-- `WR <reg>, <v>` (R66). -/
def opWR (c : Config) (r : Reg) (v : HostArg) : HostOp := .write (regAddr c r) 4 v

/-- `RD <reg> -> x` (R66). -/
def opRD (c : Config) (r : Reg) (x : Nat) : HostOp := .read (regAddr c r) 4 x

/-- `POLL <reg>, <mask>, <v>` (R66). -/
def opPOLL (c : Config) (r : Reg) (mask v : Word) : HostOp := .poll (regAddr c r) mask v

/-- `MW <addr>, <b0> <b1> …` (R66). -/
def opMW (a : Nat) (bs : List Byte) : HostOp := .memWrite a bs

/-- `MR <addr>, <n> -> x` (R66). -/
def opMR (a n x : Nat) : HostOp := .memRead a n x []

/-- `RUN <MNEMONIC>` (R67). -/
def pseudoRUN (c : Config) (i : Instr) : List HostOp :=
  [opWR c .cmd (.lit (encode i)), opPOLL c .status 0x00000001#32 0x00000000#32]

/-- `SETSRC <a>, <n>` (R67). -/
def pseudoSETSRC (c : Config) (a n : Word) : List HostOp := [opWR c .srcBase (.lit a), opWR c .srcLen (.lit n)]

/-- `SETDST <a>, <n>` (R67). -/
def pseudoSETDST (c : Config) (a n : Word) : List HostOp := [opWR c .dstBase (.lit a), opWR c .dstCap (.lit n)]

/-- `SETDIM <w>, <h>` (R67). -/
def pseudoSETDIM (c : Config) (w h : Word) : List HostOp := [opWR c .width (.lit w), opWR c .height (.lit h)]

/-- `CHAIN` (R67) through the host variables `w` and `h`. -/
def pseudoCHAIN (c : Config) (w h : Nat) : List HostOp :=
  [opRD c .outWidth w, opRD c .outHeight h, opWR c .width (.var w), opWR c .height (.var h)]

/-- `CLROVR` (R67). -/
def pseudoCLROVR (c : Config) : List HostOp := [opWR c .status (.lit 0x00000010#32)]

end Sys2Proof.Machine
end

