-- ==== Sys2Proof/Safety.lean ====
section
/-! DEFINITION. What counts as a safe state and as a command that can complete, in the spec's own terms: the invariant
of the machine, and for each command the conditions under which no check of its rule fails. -/

namespace Sys2Proof

open Machine

/-- What STATUS, ERRINFO and OUT_* say together (spec/10_state.md R22, R24, R31, R32, spec/60_exceptions.md R108,
R109): a running command has no error and is not fatal; an error is a completion with a nonzero code and zero
results; FATAL is ALLOCATION's; without an error ERRINFO is 0. -/
abbrev Machine.Regs.coherent (r : Regs) : Prop :=
  (r.status.busy = true → r.status.done = false ∧ r.status.err = false ∧ r.status.fatal = false) ∧
  (r.status.err = true → r.status.done = true) ∧
  (r.status.err = true ↔ r.status.errcode ≠ .none) ∧
  (r.status.fatal = true ↔ r.status.errcode = .allocation) ∧
  (r.status.err = false → r.errinfo = 0#32) ∧
  (r.status.err = true → r.outWidth = 0#32 ∧ r.outHeight = 0#32 ∧ r.outLen = 0#32)

/-- The invariant of the machine: legal parameters (R6), MEM in canonical form and inside MEM_BYTES (R38), coherent
registers. -/
abbrev Machine.State.Inv (s : State) : Prop :=
  s.cfg.ok ∧ s.mem.wf ∧ s.mem.below s.cfg.memBytes ∧ s.regs.coherent

/-- The regions `(a, m)` and `(b, n)`, both not empty, share no byte (R45). -/
abbrev apart (a m b n : Nat) : Prop := a + m ≤ b ∨ b + n ≤ a

/-- No check of DECODE fails (spec/41_codec.md R85). -/
abbrev DecodeOk (s : State) : Prop :=
  s.sb + s.sl ≤ s.cfg.memBytes ∧ s.db + s.dc ≤ s.cfg.memBytes ∧ 54 ≤ s.sl ∧
  s.mem.readLE s.sb 2 = 0x4D42 ∧ s.mem.readLE (s.sb + 28) 2 = 24 ∧ s.mem.readLE (s.sb + 30) 4 = 0 ∧
  0 < s.header.w ∧ s.header.hs ≠ 0 ∧ s.header.hs ≠ -2 ^ 31 ∧
  s.mem.readLE (s.sb + 10) 4 + stride s.header.wn 3 * s.header.hn ≤ s.sl ∧
  s.header.wn * s.header.hn ≤ s.dc ∧
  apart s.sb s.sl s.db (s.header.wn * s.header.hn)

/-- No check of ENCODE fails (R87). -/
abbrev EncodeOk (s : State) : Prop :=
  0 < s.latW ∧ 0 < s.latH ∧
  s.sb + s.imgW * s.imgH ≤ s.cfg.memBytes ∧ s.db + s.dc ≤ s.cfg.memBytes ∧
  1078 + stride s.imgW 1 * s.imgH ≤ s.dc ∧
  apart s.sb (s.imgW * s.imgH) s.db (1078 + stride s.imgW 1 * s.imgH)

/-- No transform check fails (spec/43_rotate.md R94): ROTCW, ROTCCW, BLUR. -/
abbrev TransformOk (s : State) : Prop :=
  0 < s.latW ∧ 0 < s.latH ∧
  s.sb + s.imgW * s.imgH ≤ s.cfg.memBytes ∧ s.db + s.dc ≤ s.cfg.memBytes ∧
  s.imgW * s.imgH ≤ s.dc ∧
  apart s.sb (s.imgW * s.imgH) s.db (s.imgW * s.imgH)

/-- What no command's completion changes: the parameters, the latches, the host, the schedule, CTRL and the parameter
registers (spec/70_reset_and_hazards.md R129: a command writes no parameter register), and OVR. -/
abbrev KeepsRest (s t : State) : Prop :=
  t.cfg = s.cfg ∧ t.lat = s.lat ∧ t.host = s.host ∧ t.sched = s.sched ∧ t.draws = s.draws ∧
  t.regs.topdown = s.regs.topdown ∧ t.regs.srcBase = s.regs.srcBase ∧ t.regs.srcLen = s.regs.srcLen ∧
  t.regs.dstBase = s.regs.dstBase ∧ t.regs.dstCap = s.regs.dstCap ∧ t.regs.width = s.regs.width ∧
  t.regs.height = s.regs.height ∧ t.regs.status.ovr = s.regs.status.ovr

/-- The registers after a completion without error (spec/40_control.md R72): OUT_* hold `w`, `h` and `len`, BUSY 0,
DONE 1, every other bit of STATUS and ERRINFO as acceptance set them. -/
abbrev CompletedOk (s t : State) (w h len : Nat) : Prop :=
  KeepsRest s t ∧ t.regs.outWidth.toNat = w ∧ t.regs.outHeight.toNat = h ∧ t.regs.outLen.toNat = len ∧
  t.regs.status.busy = false ∧ t.regs.status.done = true ∧ t.regs.status.err = s.regs.status.err ∧
  t.regs.status.fatal = s.regs.status.fatal ∧ t.regs.status.errcode = s.regs.status.errcode ∧
  t.regs.errinfo = s.regs.errinfo

/-- The state after a completion with error `code` and detail `info` (spec/60_exceptions.md R107, R108, R109): no byte
of MEM written, OUT_* 0, BUSY 0, DONE 1, ERR 1, the code, the detail, and FATAL set for ALLOCATION. -/
abbrev CompletedErr (s t : State) (code : ErrCode) (info : Word) : Prop :=
  KeepsRest s t ∧ t.mem = s.mem ∧ t.regs.outWidth = 0#32 ∧ t.regs.outHeight = 0#32 ∧ t.regs.outLen = 0#32 ∧
  t.regs.status.busy = false ∧ t.regs.status.done = true ∧ t.regs.status.err = true ∧
  t.regs.status.errcode = code ∧ t.regs.errinfo = info ∧
  (t.regs.status.fatal = true ↔ s.regs.status.fatal = true ∨ code = .allocation)

/-- PERFORM of `i` in `s` ends with error `code` and detail `info`. -/
abbrev ErrorsWith (i : Instr) (s : State) (code : ErrCode) (info : Word) : Prop :=
  ∃ t, exec i s = .next t ∧ CompletedErr s t code info

/-- `u` is about to run a command on what the command of `s` left in `t`, as CHAIN sets it up (spec/30_encoding.md R67,
spec/70_reset_and_hazards.md R129): MEM as in `t`, the source at the destination of `s`, the dimensions OUT_WIDTH and
OUT_HEIGHT of `t`. -/
abbrev ChainedOn (s t u : State) : Prop :=
  u.mem = t.mem ∧ u.lat.srcBase = s.lat.dstBase ∧ u.lat.width = t.regs.outWidth ∧ u.lat.height = t.regs.outHeight

/-- A byte of MEM that no running command owns: every byte when none runs (R39), and while one runs each byte outside
its source region and its destination written region (spec/20_memory.md R46, R49 (c), spec/70_reset_and_hazards.md
R125). What the regions are for NOP, an illegal word, a command that will fail and dimensions that are not positive is
the model's reading (log 11). -/
abbrev FreeByte (s : State) (a : Nat) : Prop :=
  a < s.cfg.memBytes ∧
  (s.regs.status.busy = true → ¬ (s.sb ≤ a ∧ a < s.sb + s.commandSourceLen) ∧
    ∀ ws o, runCommand s = .ok ws (some o) → ¬ (s.db ≤ a ∧ a < s.db + o.len))

/-- Two states that agree on everything a command may depend on (spec/42_lanes.md R92): the latches, MEM_BYTES, and the
bytes of the source region of `i`. -/
abbrev SameInputs (i : Instr) (s s' : State) : Prop :=
  s'.lat = s.lat ∧ s'.cfg.memBytes = s.cfg.memBytes ∧
  ∀ a, s.sb ≤ a → a < s.sb + sourceLen i s → s'.mem.read a = s.mem.read a

end Sys2Proof
end

