-- ==== Sys2Proof/Certificates/Slice0/Obligations.lean ====
section
/-! DEFINITION. The statements for the provers. -/

open Sys2Proof Sys2Proof.Machine

/-! ## The command word -/

/-- R56: the six words of the "word" column, written out bit by bit from R55 (RSVD = 0 above OP). -/
def Obligations.SixWordsDecodeToTheirCommands : Prop :=
  decode 0b00000000000000000000000000000000#32 = .instr .nop ∧
  decode 0b00000000000000000000000000000001#32 = .instr .decode ∧
  decode 0b00000000000000000000000000000010#32 = .instr .encode ∧
  decode 0b00000000000000000000000000000011#32 = .instr .rotcw ∧
  decode 0b00000000000000000000000000000100#32 = .instr .rotccw ∧
  decode 0b00000000000000000000000000000101#32 = .instr .blur

/-- R56: a word decodes to a command exactly when it equals the command's word, all 32 bits of it; the six words are
0x00000000 to 0x00000005 in the table's order. -/
def Obligations.DecodeIsExactWholeWordMatch : Prop :=
  (∀ (w : Word) (i : Instr), decode w = .instr i ↔ w = encode i) ∧
  encode .nop = 0x00000000#32 ∧ encode .decode = 0x00000001#32 ∧ encode .encode = 0x00000002#32 ∧
  encode .rotcw = 0x00000003#32 ∧ encode .rotccw = 0x00000004#32 ∧ encode .blur = 0x00000005#32

/-- R58: the illegal words are those with OP 0x06 to 0xFF or RSVD ≠ 0. -/
def Obligations.IllegalWordsAreReservedOpOrNonzeroRsvd : Prop :=
  ∀ w : Word, (∃ why, decode w = .illegal why) ↔ 6 ≤ w.toNat % 256 ∨ w.toNat / 256 ≠ 0

/-! ## Whose step it is, and PERFORM -/

/-- R70, R71: on the engine's turn with BUSY = 1, the step is PERFORM of the command that `lat.CMD` decodes to, on the
state with this turn taken off the schedule (the schedule is the model's own, log 5). -/
def Obligations.EngineTurnRunsTheDecodedCommand : Prop :=
  ∀ (s : State) (i : Instr), s.turn = .engine → s.regs.status.busy = true → decode s.lat.cmd = .instr i →
    step s = exec i { s with sched := s.sched.tail }

/-- R75: PERFORM of an accepted word that is none of the six completes with ILLEGAL_COMMAND and ERRINFO = the word,
writes no byte of MEM, and reads none: the outcome is the same on every MEM. -/
def Obligations.IllegalWordEndsWithIllegalCommand : Prop :=
  ∀ s : State, s.turn = .engine → s.regs.status.busy = true →
    (6 ≤ s.lat.cmd.toNat % 256 ∨ s.lat.cmd.toNat / 256 ≠ 0) →
    (∃ t, step s = .next t ∧ CompletedErr s.takeTurn t .illegalCommand s.lat.cmd) ∧
    ∀ m : Memory, runCommand { s with mem := m } = runCommand s

/-- R70, R119: with BUSY = 0 the engine has no step: its turn changes nothing but the schedule (log 5). -/
def Obligations.IdleEngineTurnChangesNothing : Prop :=
  ∀ s : State, s.turn = .engine → s.regs.status.busy = false → step s = .next { s with sched := s.sched.tail }

/-- R113: only the host's own accesses stop the machine; the engine, the reset input and every command always have a
next state. -/
def Obligations.OnlyHostAccessesStopTheMachine : Prop :=
  ∀ s : State, s.turn ≠ .host → ∃ t, step s = .next t

/-- R73, R70: an accepted command may wait for PERFORM through any number of host turns, and whatever the host did in
them PERFORM then completes it on the latches of its acceptance. That the engine has the turn as soon as the `k`
scheduled host turns are used up is the model's choice (log 5): R73 says only that PERFORM is eventually taken. -/
def Obligations.PerformComesAfterAnyHostDelay : Prop :=
  ∀ (k : Nat) (s t : State), s.regs.status.busy = true → s.sched = List.replicate k .host →
    core.run k s = .next t →
    ∃ u, step t = .next u ∧ u.regs.status.busy = false ∧ u.regs.status.done = true ∧ u.lat = s.lat

/-! ## Acceptance -/

/-- R68: a host write to CMD with BUSY = 0 and FATAL = 0 accepts the word, whatever it is: the latches, STATUS and
ERRINFO as listed; OVR, FATAL, OUT_* and MEM unchanged. -/
def Obligations.CmdWriteIsAcceptedWhenIdle : Prop :=
  ∀ (s : State) (v : Word) (rest : List HostOp), s.turn = .host →
    s.host.prog = .write (s.cfg.regBase + 0x0C) 4 (.lit v) :: rest →
    s.regs.status.busy = false → s.regs.status.fatal = false →
    ∃ t, step s = .next t ∧
      t.lat.cmd = v ∧ t.lat.topdown = s.regs.topdown ∧ t.lat.srcBase = s.regs.srcBase ∧
      t.lat.srcLen = s.regs.srcLen ∧ t.lat.dstBase = s.regs.dstBase ∧ t.lat.dstCap = s.regs.dstCap ∧
      t.lat.width = s.regs.width ∧ t.lat.height = s.regs.height ∧
      t.regs = { s.regs with
        errinfo := 0#32
        status := { busy := true, done := false, err := false, fatal := s.regs.status.fatal,
                    ovr := s.regs.status.ovr, errcode := .none } } ∧
      t.mem = s.mem ∧ t.cfg = s.cfg ∧ t.draws = s.draws ∧ t.host = { s.host with prog := rest } ∧
      t.sched = s.sched.tail

/-- R69: a host write to CMD with BUSY = 1 or FATAL = 1 sets OVR and changes nothing else of the block. -/
def Obligations.CmdWriteIsIgnoredWhenBusyOrHalted : Prop :=
  ∀ (s : State) (v : Word) (rest : List HostOp), s.turn = .host →
    s.host.prog = .write (s.cfg.regBase + 0x0C) 4 (.lit v) :: rest →
    (s.regs.status.busy = true ∨ s.regs.status.fatal = true) →
    step s = .next { s with
      regs := { s.regs with status := { s.regs.status with ovr := true } }
      host := { s.host with prog := rest }
      sched := s.sched.tail }

/-- R109, R111: in HALTED no step but reset leaves HALTED, runs a command or changes the latches. -/
def Obligations.OnlyResetLeavesHalted : Prop :=
  ∀ s t : State, s.engine = .halted → s.turn ≠ .reset → step s = .next t →
    t.engine = .halted ∧ t.lat = s.lat ∧ t.regs.status.errcode = s.regs.status.errcode ∧
    t.regs.errinfo = s.regs.errinfo ∧ t.regs.outLen = s.regs.outLen

/-- R33, R69, R128: while a command runs, no host step changes the latches, ends the command, or changes ERRINFO, OUT_*
or a bit of STATUS other than OVR; what the command will answer stays the same. -/
def Obligations.HostStepsDoNotDisturbARunningCommand : Prop :=
  ∀ s t : State, s.mem.wf → s.regs.status.busy = true → s.turn = .host → step s = .next t →
    t.lat = s.lat ∧ t.regs.status = { s.regs.status with ovr := t.regs.status.ovr } ∧
    t.regs.errinfo = s.regs.errinfo ∧ t.regs.outWidth = s.regs.outWidth ∧ t.regs.outHeight = s.regs.outHeight ∧
    t.regs.outLen = s.regs.outLen ∧ runCommand t = runCommand s

/-- R22, R23, R111: OVR is cleared only by reset or by a host write to STATUS with bit 4 set. -/
def Obligations.OvrIsClearedOnlyByStatusWriteOrReset : Prop :=
  ∀ s t : State, s.regs.status.ovr = true → step s = .next t → t.regs.status.ovr = false →
    s.turn = .reset ∨
    (s.turn = .host ∧ ∃ arg rest v, s.host.prog = .write (s.cfg.regBase + 0x10) 4 arg :: rest ∧ v.getLsbD 4 = true ∧
      s.host.word arg = some v)

/-! ## The register window -/

/-- R16, R18, R19, R120, R122: what each register reads as after power-up, for all parameters and every content of
MEM. -/
def Obligations.RegisterMapAfterPowerUp : Prop :=
  ∀ (c : Config) (m : Memory),
    (State.powerUp c m).readOffset 0x00 = 0x424D4331#32 ∧
    (c.ok → ((State.powerUp c m).readOffset 0x04).toNat = c.numLanes) ∧
    (State.powerUp c m).readOffset 0x08 = 0x00000001#32 ∧
    (∀ off, off ∈ [0x0C, 0x10, 0x14, 0x18, 0x1C, 0x20, 0x24, 0x28, 0x2C, 0x30, 0x34, 0x38] →
      (State.powerUp c m).readOffset off = 0#32) ∧
    (State.powerUp c m).engine = .idle

/-- R17, R18: a reserved offset reads 0 and a write there is ignored; a write to a read-only register is ignored; CMD
reads 0 (R21). -/
def Obligations.ReservedAndReadOnlyWritesAreIgnored : Prop :=
  ∀ (s : State) (v : Word),
    (∀ off, 0x3C ≤ off → off < 0x100 → s.readOffset off = 0#32 ∧ s.writeOffset off v = s) ∧
    (∀ off, off ∈ [0x00, 0x04, 0x14, 0x30, 0x34, 0x38] → s.writeOffset off v = s) ∧
    s.readOffset 0x0C = 0#32 ∧ s.readOffset 0x00 = 0x424D4331#32

/-- R25 to R30: each parameter register holds every 32-bit value written to it and reads back unchanged; no other
register, latch or byte of MEM changes. -/
def Obligations.ParameterRegistersReadBackWhatIsWritten : Prop :=
  ∀ (s : State) (v : Word) (off : Nat), off ∈ [0x18, 0x1C, 0x20, 0x24, 0x28, 0x2C] →
    (s.writeOffset off v).readOffset off = v ∧
    (∀ off', off' ≠ off → (s.writeOffset off v).readOffset off' = s.readOffset off') ∧
    (s.writeOffset off v).lat = s.lat ∧ (s.writeOffset off v).mem = s.mem ∧ (s.writeOffset off v).cfg = s.cfg

/-- R20: CTRL keeps bit 0 of what is written and reads 0 in bits 31:1; nothing else changes. -/
def Obligations.CtrlHoldsOnlyTopdown : Prop :=
  ∀ (s : State) (v : Word),
    ((s.writeOffset 0x08 v).readOffset 0x08).toNat = v.toNat % 2 ∧
    (∀ off', off' ≠ 0x08 → (s.writeOffset 0x08 v).readOffset off' = s.readOffset off') ∧
    (s.writeOffset 0x08 v).lat = s.lat ∧ (s.writeOffset 0x08 v).mem = s.mem

/-- R22: the bits of STATUS; R104: the nine codes its bits 15:8 can show. -/
def Obligations.StatusBitsAreTheFields : Prop :=
  (∀ s : State,
    (s.readOffset 0x10).getLsbD 0 = s.regs.status.busy ∧ (s.readOffset 0x10).getLsbD 1 = s.regs.status.done ∧
    (s.readOffset 0x10).getLsbD 2 = s.regs.status.err ∧ (s.readOffset 0x10).getLsbD 3 = s.regs.status.fatal ∧
    (s.readOffset 0x10).getLsbD 4 = s.regs.status.ovr ∧
    (s.readOffset 0x10).extractLsb' 5 3 = 0#3 ∧ (s.readOffset 0x10).extractLsb' 8 8 = s.regs.status.errcode.code ∧
    (s.readOffset 0x10).extractLsb' 16 16 = 0#16) ∧
  ErrCode.none.code = 0x00#8 ∧ ErrCode.fileOpen.code = 0x01#8 ∧ ErrCode.invalidFormat.code = 0x02#8 ∧
  ErrCode.truncatedData.code = 0x03#8 ∧ ErrCode.invalidDimension.code = 0x04#8 ∧ ErrCode.allocation.code = 0x05#8 ∧
  ErrCode.illegalCommand.code = 0x06#8 ∧ ErrCode.address.code = 0x07#8 ∧ ErrCode.overlap.code = 0x08#8

/-- R23: a host write of `v` to STATUS clears OVR when v[4] = 1, changes no other bit and nothing else: no latch, no
other register, no byte of MEM. -/
def Obligations.StatusWriteClearsOnlyOvr : Prop :=
  ∀ (s : State) (v : Word),
    (s.writeOffset 0x10 v).readOffset 0x10 = s.readOffset 0x10 &&& ~~~(v &&& 0x00000010#32) ∧
    (∀ off', off' ≠ 0x10 → (s.writeOffset 0x10 v).readOffset off' = s.readOffset off') ∧
    (s.writeOffset 0x10 v).lat = s.lat ∧ (s.writeOffset 0x10 v).mem = s.mem ∧
    (s.writeOffset 0x10 v).cfg = s.cfg ∧ (s.writeOffset 0x10 v).host = s.host

/-- R124: any register access of the host that is not an aligned 32-bit one is refused. -/
def Obligations.BadRegisterAccessIsRefused : Prop :=
  ∀ (s : State) (off width : Nat) (arg : HostArg) (x : Nat) (mask v : Word) (rest : List HostOp), s.turn = .host →
    off < 256 → (width ≠ 4 ∨ off % 4 ≠ 0) →
    (s.host.prog = .write (s.cfg.regBase + off) width arg :: rest →
      step s = .refused (.badRegisterAccess (s.cfg.regBase + off) width)) ∧
    (s.host.prog = .read (s.cfg.regBase + off) width x :: rest →
      step s = .refused (.badRegisterAccess (s.cfg.regBase + off) width)) ∧
    (off % 4 ≠ 0 → s.host.prog = .poll (s.cfg.regBase + off) mask v :: rest →
      step s = .refused (.badRegisterAccess (s.cfg.regBase + off) 4))

/-- R17, R66 (WR), R67: a host write at an aligned offset of the window, of a number or of the word a variable holds, is
a step that does what `writeOffset` says of that offset (the statements of this section; for CMD those of the section
before), the program one operation on; it changes no byte of MEM, no parameter, no variable. That the
write of a variable that holds no word is refused is the model's choice (log 7). -/
def Obligations.HostRegisterWriteActsAtItsOffset : Prop :=
  ∀ (s : State) (off : Nat) (arg : HostArg) (rest : List HostOp), s.turn = .host → off < 256 → off % 4 = 0 →
    s.host.prog = .write (s.cfg.regBase + off) 4 arg :: rest →
    (∀ v, (arg = .lit v ∨ ∃ x, arg = .var x ∧ s.host.lookup x = some (.word v)) →
      ∃ t, step s = .next t ∧
        t = State.writeOffset { s with host := { s.host with prog := rest }, sched := s.sched.tail } off v ∧
        t.mem = s.mem ∧ t.cfg = s.cfg ∧ t.draws = s.draws ∧ t.sched = s.sched.tail ∧
        t.host = { s.host with prog := rest } ∧ (off ≠ 0x0C → t.lat = s.lat)) ∧
    (∀ x, arg = .var x → (∀ w, s.host.lookup x ≠ some (.word w)) → step s = .refused (.unboundHostVariable arg))

/-- R17, R43, R66: an aligned 32-bit register read has no side effect; the value read goes to the host's variable. -/
def Obligations.RegisterReadHasNoSideEffect : Prop :=
  ∀ (s : State) (off x : Nat) (rest : List HostOp), s.turn = .host → off < 256 → off % 4 = 0 →
    s.host.prog = .read (s.cfg.regBase + off) 4 x :: rest →
    ∃ t, step s = .next t ∧ t.regs = s.regs ∧ t.lat = s.lat ∧ t.mem = s.mem ∧ t.cfg = s.cfg ∧ t.draws = s.draws ∧
      t.host.prog = rest ∧ t.host.lookup x = some (.word (s.readOffset off)) ∧
      ∀ y, y ≠ x → t.host.lookup y = s.host.lookup y

/-- R66: a POLL step reads its register once, goes on when `(value & mask) = v`, and else stays to be repeated; the
block does not change. -/
def Obligations.PollRepeatsUntilItsConditionHolds : Prop :=
  ∀ (s : State) (off : Nat) (mask v : Word) (rest : List HostOp), s.turn = .host → off < 256 → off % 4 = 0 →
    s.host.prog = .poll (s.cfg.regBase + off) mask v :: rest →
    (s.readOffset off &&& mask = v →
      step s = .next { s with host := { s.host with prog := rest }, sched := s.sched.tail }) ∧
    (s.readOffset off &&& mask ≠ v → step s = .next { s with sched := s.sched.tail })

/-! ## Host accesses to MEM -/

/-- R125, R49 (c): while a command runs, a host read or write of a byte of its source region (for DECODE the file, for
the others the W·H-byte source buffer) or of its written region `(DST_BASE, OUT_LEN)` is refused; every other byte is
free, for a write and for a read. The model's readings (log 11): NOP and a running illegal word have no source region,
since they read no byte (R74, R75), and a command that will fail has an empty written region (R107), so that with NOP
and an illegal word every byte is free. (Non-positive dimensions: the next statement.) -/
def Obligations.AccessToABusyRegionIsRefused : Prop :=
  ∀ (s : State) (a : Nat) (b : Byte) (bs : List Byte) (n x : Nat) (got : List Byte) (rest : List HostOp),
    s.turn = .host → s.regs.status.busy = true → a < s.cfg.memBytes →
    (s.host.prog = .memWrite a (b :: bs) :: rest ∨ s.host.prog = .memRead a (n + 1) x got :: rest) →
    (∀ i : Instr, decode s.lat.cmd = .instr i →
      (i = .decode → s.sb ≤ a → a < s.sb + s.sl → step s = .refused (.race a)) ∧
      (i ∈ [.encode, .rotcw, .rotccw, .blur] → 0 < s.latW → 0 < s.latH → s.sb ≤ a → a < s.sb + s.imgW * s.imgH →
        step s = .refused (.race a)) ∧
      (∀ ws o, runInstr i s = .ok ws (some o) → s.db ≤ a → a < s.db + o.len → step s = .refused (.race a)) ∧
      ((i ∈ [.nop, .decode] ∨ 0 < s.latW ∧ 0 < s.latH) → ¬ (s.sb ≤ a ∧ a < s.sb + sourceLen i s) →
        (∀ ws o, runInstr i s = .ok ws (some o) → ¬ (s.db ≤ a ∧ a < s.db + o.len)) → ∃ t, step s = .next t)) ∧
    ((6 ≤ s.lat.cmd.toNat % 256 ∨ s.lat.cmd.toNat / 256 ≠ 0) → ∃ t, step s = .next t)

/-- The model's choice (log 11): a running ENCODE, ROTCW, ROTCCW or BLUR with a width or height that is not positive has
no source byte and will write none, so every host access to a byte of MEM goes ahead. -/
def Obligations.BadDimensionsLeaveEveryByteFree : Prop :=
  ∀ (s : State) (i : Instr) (a : Nat) (b : Byte) (bs : List Byte) (n x : Nat) (got : List Byte) (rest : List HostOp),
    s.turn = .host → s.regs.status.busy = true → decode s.lat.cmd = .instr i → i ∈ [.encode, .rotcw, .rotccw, .blur] →
    (s.latW ≤ 0 ∨ s.latH ≤ 0) → a < s.cfg.memBytes →
    (s.host.prog = .memWrite a (b :: bs) :: rest ∨ s.host.prog = .memRead a (n + 1) x got :: rest) →
    ∃ t, step s = .next t

/-- R39, R43, R49, R66 (MW, MR): at a byte no running command owns (`FreeByte`: every byte of MEM when none runs), a host
byte write stores that byte and no other, and a host byte read changes nothing of the block; an MR returns the bytes of
MEM from its address up, bound to its variable at the end, and no other variable changes. Neither changes a register or
a latch. Two choices of the model are in it: which bytes NOP, an illegal word, a command that will fail and dimensions
that are not positive own, in `FreeByte`, is log 11's reading; that an MW or MR of no byte takes a step of its own, which
only removes it (and binds no byte to the MR's variable), is log 7's choice: R66 encodes each
operation as one or more bus transactions. -/
def Obligations.HostMemAccessesStoreAndReturnTheBytes : Prop :=
  (∀ (s : State) (a : Nat) (b : Byte) (bs : List Byte) (rest : List HostOp), s.mem.wf → s.turn = .host →
    FreeByte s a → s.host.prog = .memWrite a (b :: bs) :: rest →
    ∃ t, step s = .next t ∧ t.mem.read a = b ∧ (∀ a', a' ≠ a → t.mem.read a' = s.mem.read a') ∧
      t.regs = s.regs ∧ t.lat = s.lat ∧ t.cfg = s.cfg ∧ t.draws = s.draws ∧ t.host.vars = s.host.vars ∧
      t.host.prog = (if bs = [] then rest else .memWrite (a + 1) bs :: rest)) ∧
  (∀ (s : State) (a n x : Nat) (got : List Byte) (rest : List HostOp), s.turn = .host → FreeByte s a →
    s.host.prog = .memRead a (n + 1) x got :: rest →
    ∃ t, step s = .next t ∧ t.mem = s.mem ∧ t.regs = s.regs ∧ t.lat = s.lat ∧ t.cfg = s.cfg ∧ t.draws = s.draws ∧
      (0 < n → t.host.vars = s.host.vars ∧ t.host.prog = .memRead (a + 1) n x (got ++ [s.mem.read a]) :: rest) ∧
      (n = 0 → t.host.prog = rest ∧ t.host.lookup x = some (.bytes (got ++ [s.mem.read a])) ∧
        ∀ y, y ≠ x → t.host.lookup y = s.host.lookup y)) ∧
  (∀ (s : State) (a n x : Nat) (rest : List HostOp), s.sched = List.replicate (n + 1) .host →
    (∀ k ≤ n, FreeByte s (a + k)) → s.host.prog = opMR a (n + 1) x :: rest →
    ∃ t, core.run (n + 1) s = .next t ∧ t.mem = s.mem ∧ t.regs = s.regs ∧ t.lat = s.lat ∧ t.cfg = s.cfg ∧
      t.draws = s.draws ∧ t.host.prog = rest ∧
      t.host.lookup x = some (.bytes ((List.range (n + 1)).map fun k => s.mem.read (a + k))) ∧
      ∀ y, y ≠ x → t.host.lookup y = s.host.lookup y) ∧
  (∀ (s : State) (a x : Nat) (rest : List HostOp), s.turn = .host →
    (s.host.prog = opMW a [] :: rest →
      step s = .next { s with host := { s.host with prog := rest }, sched := s.sched.tail }) ∧
    (s.host.prog = opMR a 0 x :: rest →
      step s = .next { s with host := { (s.host.bind x (.bytes [])) with prog := rest }, sched := s.sched.tail }))

/-- R38: there is no byte at or above MEM_BYTES. That the host's access to one is a fault is the model's choice
(log 8). -/
def Obligations.AccessAboveMemBytesFaults : Prop :=
  ∀ (s : State) (a : Nat) (b : Byte) (bs : List Byte) (n x : Nat) (got : List Byte) (rest : List HostOp),
    s.turn = .host → s.cfg.memBytes ≤ a →
    (s.host.prog = .memWrite a (b :: bs) :: rest ∨ s.host.prog = .memRead a (n + 1) x got :: rest) →
    step s = .fault (.noSuchMemByte a)

/-- R10: `MemRead(a, n)` is the little-endian sum of its bytes; `MemWrite(a, n, v)` leaves `(v div 2^(8i)) mod 256` at
`a + i`, so that reading it back gives `v mod 256^n`; `MemWriteBytes` leaves its bytes in order; no other byte
changes. -/
def Obligations.MemReadReturnsWhatMemWriteStored : Prop :=
  (∀ (m : Memory) (a n : Nat), m.readLE a n = ∑ i ∈ Finset.range n, (m.read (a + i)).toNat * 2 ^ (8 * i)) ∧
  (∀ (m : Memory) (a n v : Nat), m.wf →
    (m.apply (cellsAt a (leBytes n v))).readLE a n = v % 256 ^ n ∧
    (∀ i < n, ((m.apply (cellsAt a (leBytes n v))).read (a + i)).toNat = v / 2 ^ (8 * i) % 256) ∧
    (∀ a', (a' < a ∨ a + n ≤ a') → (m.apply (cellsAt a (leBytes n v))).read a' = m.read a')) ∧
  (∀ (m : Memory) (a : Nat) (bs : List Byte), m.wf →
    (∀ (i : Nat) (h : i < bs.length), (m.apply (cellsAt a bs)).read (a + i) = bs[i]) ∧
    (∀ a', (a' < a ∨ a + bs.length ≤ a') → (m.apply (cellsAt a bs)).read a' = m.read a'))

/-! ## Host programs -/

/-- R67, R129: CHAIN, run by the host, copies OUT_WIDTH and OUT_HEIGHT into WIDTH and HEIGHT and changes no other
register, no latch and no byte of MEM. -/
def Obligations.ChainCopiesTheDimensions : Prop :=
  ∀ (s : State) (w h : Nat) (rest : List HostOp), w ≠ h → s.sched = List.replicate 4 .host →
    s.host.prog = pseudoCHAIN s.cfg w h ++ rest →
    ∃ t, core.run 4 s = .next t ∧
      t.regs = { s.regs with width := s.regs.outWidth, height := s.regs.outHeight } ∧ t.lat = s.lat ∧ t.mem = s.mem ∧
      t.host.prog = rest

/-- R67: `RUN` of a command on an idle block, with no other turn scheduled (the engine is then taken first, log 5): the
CMD write, PERFORM, and the poll that sees BUSY = 0. It ends with the command completed, as PERFORM of the accepted
command leaves it. -/
def Obligations.RunEndsWithTheCommandCompleted : Prop :=
  ∀ (s : State) (i : Instr) (rest : List HostOp), s.regs.status.busy = false → s.regs.status.fatal = false →
    s.sched = [] → s.host.prog = pseudoRUN s.cfg i ++ rest →
    ∃ t u, exec i (s.accept (encode i)) = .next t ∧ core.run 3 s = .next u ∧ u.regs = t.regs ∧ u.lat = t.lat ∧
      u.mem = t.mem ∧ u.host.prog = rest ∧ u.regs.status.busy = false ∧ u.regs.status.done = true

/-! ## Completion and errors -/

/-- R72: completion without error: OUT_* hold the results, none cut by its 32 bits, BUSY 0, DONE 1, every other register
as it was, and the engine is IDLE; NOP leaves OUT_* unchanged. -/
def Obligations.SuccessfulCompletionSetsResults : Prop :=
  (∀ (s : State) (i : Instr) (ws : List Host.Cell) (o : Out), s.regs.status.fatal = false →
    runInstr i s = .ok ws (some o) →
    ∃ t, exec i s = .next t ∧ CompletedOk s t o.w o.h o.len ∧ t.mem = s.mem.apply ws ∧ t.engine = .idle) ∧
  (∀ s : State, s.regs.status.fatal = false →
    ∃ t, exec .nop s = .next t ∧
      CompletedOk s t s.regs.outWidth.toNat s.regs.outHeight.toNat s.regs.outLen.toNat ∧ t.engine = .idle)

/-- R108: completion with an error: the registers as listed, nothing else saved, MEM unchanged, and the engine IDLE, or
HALTED for ALLOCATION. -/
def Obligations.ErrorCompletionRecordsTheError : Prop :=
  ∀ (s : State) (code : ErrCode) (info : Word), s.regs.status.fatal = false → runCommand s = .err code info →
    ∃ t, perform s = .next t ∧ CompletedErr s t code info ∧
      t.engine = (if code = .allocation then .halted else .idle)

/-- R107: a command that ends with an error has written no byte of MEM; R46: a command that completes without error
leaves every byte outside `(DST_BASE, OUT_LEN)` and every byte of its source region as it was. -/
def Obligations.CommandsWriteOnlyTheirWrittenRegion : Prop :=
  ∀ (s t : State) (i : Instr), s.mem.wf → s.regs.status.err = false → exec i s = .next t →
    (t.regs.status.err = true → t.mem = s.mem) ∧
    (i = .nop → t.mem = s.mem) ∧
    (t.regs.status.err = false → ∀ a, (a < s.db ∨ s.db + t.regs.outLen.toNat ≤ a) → i ≠ .nop →
      t.mem.read a = s.mem.read a) ∧
    (∀ a, s.sb ≤ a → a < s.sb + sourceLen i s → t.mem.read a = s.mem.read a)

/-- R46, R50, R97: a successful command writes every byte of `(DST_BASE, OUT_LEN)` exactly once and no other byte. -/
def Obligations.EveryDestinationByteIsWrittenOnce : Prop :=
  ∀ (s : State) (i : Instr) (ws : List Host.Cell) (o : Out), runInstr i s = .ok ws (some o) →
    (ws.map Prod.fst).Nodup ∧ ∀ a, a ∈ ws.map Prod.fst ↔ s.db ≤ a ∧ a < s.db + o.len

/-- R13, R50, R71: applying a command's writes in any order gives the same MEM. -/
def Obligations.WritesGiveTheSameMemoryInAnyOrder : Prop :=
  ∀ (s : State) (i : Instr) (ws ws' : List Host.Cell) (out : Option Out), s.mem.wf →
    runInstr i s = .ok ws out → ws'.Perm ws → s.mem.apply ws' = s.mem.apply ws

/-- R92: what `Run` answers is a function of the latches and the source bytes alone (and of MEM_BYTES, which the region
checks compare with): it does not depend on NUM_LANES, on the registers, on the host or on any other byte of MEM. -/
def Obligations.OutcomeDependsOnlyOnLatchesAndSourceBytes : Prop :=
  ∀ (i : Instr) (s s' : State), SameInputs i s s' → runInstr i s' = runInstr i s

/-- R74: NOP completes in every state: BUSY 0, DONE 1, everything else as it was: OUT_*, MEM, and the rest of STATUS.
After its acceptance that is ERR 0, ERRCODE 0x00 and ERRINFO 0, whatever the command before left. -/
def Obligations.NopCompletesAndChangesOnlyStatus : Prop :=
  (∀ s : State, exec .nop s = .next { s with
    regs := { s.regs with status := { s.regs.status with busy := false, done := true } } }) ∧
  (∀ s : State, ∃ t, exec .nop (s.accept 0x00000000#32) = .next t ∧ t.mem = s.mem ∧
    t.regs = { s.regs with
      errinfo := 0#32
      status := { busy := false, done := true, err := false, fatal := s.regs.status.fatal, ovr := s.regs.status.ovr,
                  errcode := .none } })

/-! ## DECODE -/

/-- R85, R105, R106: DECODE's checks in order, with the code and ERRINFO of the first that fails. -/
def Obligations.DecodeReportsItsFirstFailingCheck : Prop :=
  ∀ s : State,
    let v1 := s.sb + s.sl ≤ s.cfg.memBytes
    let v2 := s.db + s.dc ≤ s.cfg.memBytes
    let v3 := 2 ≤ s.sl ∧ s.mem.readLE s.sb 2 = 0x4D42
    let v4 := 54 ≤ s.sl
    let v5 := s.mem.readLE (s.sb + 28) 2 = 24
    let v6 := s.mem.readLE (s.sb + 30) 4 = 0
    let w := s32 (u32 (s.mem.readLE (s.sb + 18) 4))
    let hs := s32 (u32 (s.mem.readLE (s.sb + 22) 4))
    let v7 := 0 < w
    let v8 := hs ≠ 0 ∧ hs ≠ -2 ^ 31
    let need := s.mem.readLE (s.sb + 10) 4 + stride w.toNat 3 * hs.natAbs
    let len := w.toNat * hs.natAbs
    (¬ v1 → ErrorsWith .decode s .fileOpen 0#32) ∧
    (v1 → ¬ v2 → ErrorsWith .decode s .address 1#32) ∧
    (v1 → v2 → ¬ v3 → ErrorsWith .decode s .invalidFormat 0#32) ∧
    (v1 → v2 → v3 → ¬ v4 → ErrorsWith .decode s .truncatedData 54#32) ∧
    (v1 → v2 → v3 → v4 → ¬ v5 → ErrorsWith .decode s .invalidFormat 28#32) ∧
    (v1 → v2 → v3 → v4 → v5 → ¬ v6 → ErrorsWith .decode s .invalidFormat 30#32) ∧
    (v1 → v2 → v3 → v4 → v5 → v6 → ¬ v7 → ErrorsWith .decode s .invalidDimension 0#32) ∧
    (v1 → v2 → v3 → v4 → v5 → v6 → v7 → ¬ v8 → ErrorsWith .decode s .invalidDimension 1#32) ∧
    (v1 → v2 → v3 → v4 → v5 → v6 → v7 → v8 → s.sl < need → ErrorsWith .decode s .truncatedData (sat32 need)) ∧
    (v1 → v2 → v3 → v4 → v5 → v6 → v7 → v8 → need ≤ s.sl → s.dc < len →
      ErrorsWith .decode s .allocation (sat32 len)) ∧
    (v1 → v2 → v3 → v4 → v5 → v6 → v7 → v8 → need ≤ s.sl → len ≤ s.dc →
      (s.sb < s.db + len ∧ s.db < s.sb + s.sl) → ErrorsWith .decode s .overlap 0#32)

/-- R62, R80, R84, R85, R72: when no check fails DECODE completes; sample (x, y) is the floored luma of the stored
pixel's B, G, R bytes, taken from stored row y of a negative-height file with TOPDOWN = 1 and from row H − 1 − y
otherwise; OUT_* are W, H, W·H; no byte outside `(DST_BASE, W·H)` changes. -/
def Obligations.DecodeCompletesWithLumaSamples : Prop :=
  ∀ s : State, s.mem.wf → DecodeOk s →
    let W := s.header.wn
    let H := s.header.hn
    ∃ t, exec .decode s = .next t ∧ CompletedOk s t W H (W * H) ∧
      (∀ x < W, ∀ y < H,
        let r := if s.header.hs < 0 ∧ s.lat.topdown = true then y else H - 1 - y
        let p := s.sb + s.mem.readLE (s.sb + 10) 4 + r * stride W 3 + 3 * x
        (t.mem.read (s.db + y * W + x)).toNat =
          (30 * (s.mem.read (p + 2)).toNat + 59 * (s.mem.read (p + 1)).toNat + 11 * (s.mem.read p).toNat) / 100) ∧
      (∀ a, (a < s.db ∨ s.db + W * H ≤ a) → t.mem.read a = s.mem.read a)

/-- R82, R85 (93_implementation_defined U11, U12): DECODE's outcome does not depend on any file byte but the six header
fields R82 lists and the B, G, R bytes of its pixels: the ignored fields, the gap and the row padding change nothing. -/
def Obligations.IgnoredFileBytesNeverMatter : Prop :=
  ∀ (s : State) (m' : Memory),
    (∀ k, k ∈ [0, 1, 10, 11, 12, 13, 18, 19, 20, 21, 22, 23, 24, 25, 28, 29, 30, 31, 32, 33] →
      m'.read (s.sb + k) = s.mem.read (s.sb + k)) →
    (∀ x < s.header.wn, ∀ r < s.header.hn, ∀ k < 3,
      m'.read (s.sb + s.header.off + r * stride s.header.wn 3 + 3 * x + k) =
        s.mem.read (s.sb + s.header.off + r * stride s.header.wn 3 + 3 * x + k)) →
    runInstr .decode { s with mem := m' } = runInstr .decode s

/-! ## ENCODE -/

/-- R87, R105, R106: ENCODE's checks in order, with the code and ERRINFO of the first that fails. -/
def Obligations.EncodeReportsItsFirstFailingCheck : Prop :=
  ∀ s : State,
    let len := s.imgW * s.imgH
    let fsz := 1078 + stride s.imgW 1 * s.imgH
    let v3 := s.sb + len ≤ s.cfg.memBytes
    let v4 := s.db + s.dc ≤ s.cfg.memBytes
    (s.latW ≤ 0 → ErrorsWith .encode s .invalidDimension 0#32) ∧
    (0 < s.latW → s.latH ≤ 0 → ErrorsWith .encode s .invalidDimension 1#32) ∧
    (0 < s.latW → 0 < s.latH → ¬ v3 → ErrorsWith .encode s .address 0#32) ∧
    (0 < s.latW → 0 < s.latH → v3 → ¬ v4 → ErrorsWith .encode s .fileOpen 1#32) ∧
    (0 < s.latW → 0 < s.latH → v3 → v4 → s.dc < fsz → ErrorsWith .encode s .fileOpen 1#32) ∧
    (0 < s.latW → 0 < s.latH → v3 → v4 → fsz ≤ s.dc → (s.sb < s.db + fsz ∧ s.db < s.sb + len) →
      ErrorsWith .encode s .overlap 0#32)

/-- R60, R61, R63, R64, R86, R87, R72: when no check fails ENCODE completes and leaves the file image at DST_BASE: every
header field, the palette, and stored row r holding image row H − 1 − r with zero padding; OUT_* are W, H and the file
size; no byte outside the file changes. -/
def Obligations.EncodeCompletesWithFileImage : Prop :=
  ∀ s : State, s.mem.wf → EncodeOk s →
    let W := s.imgW
    let H := s.imgH
    let S := stride W 1
    let fsz := 1078 + S * H
    ∃ t, exec .encode s = .next t ∧ CompletedOk s t W H fsz ∧
      (t.mem.readLE s.db 2 = 0x4D42 ∧ t.mem.readLE (s.db + 2) 4 = fsz ∧ t.mem.readLE (s.db + 6) 2 = 0 ∧
        t.mem.readLE (s.db + 8) 2 = 0 ∧ t.mem.readLE (s.db + 10) 4 = 1078 ∧ t.mem.readLE (s.db + 14) 4 = 40 ∧
        t.mem.readLE (s.db + 18) 4 = W ∧ t.mem.readLE (s.db + 22) 4 = H ∧ t.mem.readLE (s.db + 26) 2 = 1 ∧
        t.mem.readLE (s.db + 28) 2 = 8 ∧ t.mem.readLE (s.db + 30) 4 = 0 ∧ t.mem.readLE (s.db + 34) 4 = S * H ∧
        t.mem.readLE (s.db + 38) 4 = 0 ∧ t.mem.readLE (s.db + 42) 4 = 0 ∧ t.mem.readLE (s.db + 46) 4 = 256 ∧
        t.mem.readLE (s.db + 50) 4 = 0) ∧
      (∀ i < 256, (∀ k < 3, (t.mem.read (s.db + 54 + 4 * i + k)).toNat = i) ∧
        (t.mem.read (s.db + 54 + 4 * i + 3)).toNat = 0) ∧
      (∀ r < H, (∀ x < W, t.mem.read (s.db + 1078 + r * S + x) = s.mem.read (s.sb + (H - 1 - r) * W + x)) ∧
        ∀ x, W ≤ x → x < S → (t.mem.read (s.db + 1078 + r * S + x)).toNat = 0) ∧
      (∀ a, (a < s.db ∨ s.db + fsz ≤ a) → t.mem.read a = s.mem.read a)

/-- R85 check 5, R86 (95_test_vectors section 3.3): DECODE of a file that ENCODE wrote ends with INVALID_FORMAT(28): the
block's output is 8-bit, its input 24-bit. -/
def Obligations.DecodeRejectsWhatEncodeWrote : Prop :=
  ∀ s t u : State, s.mem.wf → EncodeOk s → exec .encode s = .next t →
    u.mem = t.mem → u.cfg = s.cfg → u.lat.srcBase = s.lat.dstBase → u.lat.srcLen = t.regs.outLen →
    u.db + u.dc ≤ u.cfg.memBytes → ErrorsWith .decode u .invalidFormat 28#32

/-! ## ROTCW, ROTCCW, BLUR -/

/-- R94: the transform checks of ROTCW, ROTCCW and BLUR in order, with the code and ERRINFO of the first that fails. -/
def Obligations.TransformsReportTheirFirstFailingCheck : Prop :=
  ∀ (s : State) (i : Instr), i ∈ [.rotcw, .rotccw, .blur] →
    let len := s.imgW * s.imgH
    let v3 := s.sb + len ≤ s.cfg.memBytes
    let v4 := s.db + s.dc ≤ s.cfg.memBytes
    (s.latW ≤ 0 → ErrorsWith i s .invalidDimension 0#32) ∧
    (0 < s.latW → s.latH ≤ 0 → ErrorsWith i s .invalidDimension 1#32) ∧
    (0 < s.latW → 0 < s.latH → ¬ v3 → ErrorsWith i s .address 0#32) ∧
    (0 < s.latW → 0 < s.latH → v3 → ¬ v4 → ErrorsWith i s .address 1#32) ∧
    (0 < s.latW → 0 < s.latH → v3 → v4 → s.dc < len → ErrorsWith i s .allocation (sat32 len)) ∧
    (0 < s.latW → 0 < s.latH → v3 → v4 → len ≤ s.dc → (s.sb < s.db + len ∧ s.db < s.sb + len) →
      ErrorsWith i s .overlap 0#32)

/-- R95, R72: when no check fails ROTCW completes: source pixel (x, y) stands at `x·H + (H − 1 − y)`, the dimensions
swap, no byte outside `(DST_BASE, W·H)` changes. -/
def Obligations.RotcwCompletesWithTheClockwiseTurn : Prop :=
  ∀ s : State, s.mem.wf → TransformOk s →
    let W := s.imgW
    let H := s.imgH
    ∃ t, exec .rotcw s = .next t ∧ CompletedOk s t H W (W * H) ∧
      (∀ x < W, ∀ y < H, t.mem.read (s.db + x * H + (H - 1 - y)) = s.mem.read (s.sb + y * W + x)) ∧
      (∀ a, (a < s.db ∨ s.db + W * H ≤ a) → t.mem.read a = s.mem.read a)

/-- R96, R72: when no check fails ROTCCW completes: source pixel (x, y) stands at `(W − 1 − x)·H + y`, the dimensions
swap, no byte outside `(DST_BASE, W·H)` changes. -/
def Obligations.RotccwCompletesWithTheCounterclockwiseTurn : Prop :=
  ∀ s : State, s.mem.wf → TransformOk s →
    let W := s.imgW
    let H := s.imgH
    ∃ t, exec .rotccw s = .next t ∧ CompletedOk s t H W (W * H) ∧
      (∀ x < W, ∀ y < H, t.mem.read (s.db + (W - 1 - x) * H + y) = s.mem.read (s.sb + y * W + x)) ∧
      (∀ a, (a < s.db ∨ s.db + W * H ≤ a) → t.mem.read a = s.mem.read a)

/-- R99, R100, R101, R72: when no check fails BLUR completes: an interior pixel becomes the floored quotient by 273 of
the kernel sum over the SOURCE buffer, a border pixel is copied, no byte outside `(DST_BASE, W·H)` changes. -/
def Obligations.BlurCompletesWithTheConvolution : Prop :=
  ∀ s : State, s.mem.wf → TransformOk s →
    let W := s.imgW
    let H := s.imgH
    let K : Nat → Nat → Nat := fun j i =>
      (([[1, 4, 7, 4, 1], [4, 16, 26, 16, 4], [7, 26, 41, 26, 7], [4, 16, 26, 16, 4], [1, 4, 7, 4, 1]]
        : List (List Nat)).getD j []).getD i 0
    ∃ t, exec .blur s = .next t ∧ CompletedOk s t W H (W * H) ∧
      (∀ x < W, ∀ y < H, (x < 2 ∨ y < 2 ∨ W ≤ x + 2 ∨ H ≤ y + 2) →
        t.mem.read (s.db + y * W + x) = s.mem.read (s.sb + y * W + x)) ∧
      (∀ x y, 2 ≤ x → x + 2 < W → 2 ≤ y → y + 2 < H →
        (t.mem.read (s.db + y * W + x)).toNat =
          (∑ j ∈ Finset.range 5, ∑ i ∈ Finset.range 5,
            K j i * (s.mem.read (s.sb + (y + j - 2) * W + (x + i - 2))).toNat) / 273) ∧
      (∀ a, (a < s.db ∨ s.db + W * H ≤ a) → t.mem.read a = s.mem.read a)

/-- R98: the four rotation laws, on the machine: ROTCCW of ROTCW's output gives the source back, ROTCW of ROTCCW's
output too, ROTCW twice is the half turn, ROTCW four times gives the source back; each with the source's dimensions. -/
def Obligations.RotationLawsHold : Prop :=
  (∀ (i j : Instr) (s t u v : State), (i = .rotcw ∧ j = .rotccw ∨ i = .rotccw ∧ j = .rotcw) →
    s.mem.wf → TransformOk s → exec i s = .next t → ChainedOn s t u → TransformOk u → exec j u = .next v →
    v.regs.outWidth = s.lat.width ∧ v.regs.outHeight = s.lat.height ∧
    ∀ k < s.imgW * s.imgH, v.mem.read (u.db + k) = s.mem.read (s.sb + k)) ∧
  (∀ s t u v : State, s.mem.wf → TransformOk s → exec .rotcw s = .next t → ChainedOn s t u → TransformOk u →
    exec .rotcw u = .next v →
    v.regs.outWidth = s.lat.width ∧ v.regs.outHeight = s.lat.height ∧
    ∀ x < s.imgW, ∀ y < s.imgH,
      v.mem.read (u.db + (s.imgH - 1 - y) * s.imgW + (s.imgW - 1 - x)) = s.mem.read (s.sb + y * s.imgW + x)) ∧
  (∀ s t u v u' t' u'' v' : State, s.mem.wf → TransformOk s → exec .rotcw s = .next t → ChainedOn s t u →
    TransformOk u → exec .rotcw u = .next v → ChainedOn u v u' → TransformOk u' → exec .rotcw u' = .next t' →
    ChainedOn u' t' u'' → TransformOk u'' → exec .rotcw u'' = .next v' →
    v'.regs.outWidth = s.lat.width ∧ v'.regs.outHeight = s.lat.height ∧
    ∀ k < s.imgW * s.imgH, v'.mem.read (u''.db + k) = s.mem.read (s.sb + k))

/-- R97: the two maps are bijections from [0, W) × [0, H) onto [0, W·H), with the inverses the rule gives. -/
def Obligations.RotationMapsAreBijections : Prop :=
  ∀ W H : Nat, 1 ≤ W → 1 ≤ H →
    (∀ x < W, ∀ y < H, cwIndex H x y < W * H ∧ cwIndex H x y / H = x ∧ H - 1 - cwIndex H x y % H = y) ∧
    (∀ i < W * H, i / H < W ∧ H - 1 - i % H < H ∧ cwIndex H (i / H) (H - 1 - i % H) = i) ∧
    (∀ x < W, ∀ y < H,
      ccwIndex W H x y < W * H ∧ W - 1 - ccwIndex W H x y / H = x ∧ ccwIndex W H x y % H = y) ∧
    (∀ i < W * H, W - 1 - i / H < W ∧ i % H < H ∧ ccwIndex W H (W - 1 - i / H) (i % H) = i)

/-- R102: a filtered sample lies between the least and the greatest sample of its 5×5 window; a uniform window of value
v gives exactly v. -/
def Obligations.GaussStaysWithinItsWindow : Prop :=
  ∀ (p : Nat → Nat → Byte) (x y lo hi : Nat), 2 ≤ x → 2 ≤ y →
    (∀ i < 5, ∀ j < 5, lo ≤ (p (x + i - 2) (y + j - 2)).toNat ∧ (p (x + i - 2) (y + j - 2)).toNat ≤ hi) →
    lo ≤ (gauss p x y).toNat ∧ (gauss p x y).toNat ≤ hi ∧ (gauss p x y).toNat = mac p x y / 273 ∧
    (lo = hi → (gauss p x y).toNat = lo)

/-- R103: after BLUR every border pixel equals the source's, for every W, H ≥ 1, and when W < 5 or H < 5 the output
equals the source everywhere (R99); the 25 kernel weights sum to exactly 273. -/
def Obligations.BlurKeepsBorderAndSmallImages : Prop :=
  (∀ s t : State, s.mem.wf → TransformOk s → exec .blur s = .next t →
    (∀ x < s.imgW, ∀ y < s.imgH, (x < 2 ∨ y < 2 ∨ s.imgW - 2 ≤ x ∨ s.imgH - 2 ≤ y) →
      t.mem.read (s.db + y * s.imgW + x) = s.mem.read (s.sb + y * s.imgW + x)) ∧
    ((s.imgW < 5 ∨ s.imgH < 5) → ∀ k < s.imgW * s.imgH, t.mem.read (s.db + k) = s.mem.read (s.sb + k))) ∧
  (∑ j ∈ Finset.range 5, ∑ i ∈ Finset.range 5, kernelAt j i) = 273

/-! ## The sub-units -/

/-- R79: the row-stride law and the padding. -/
def Obligations.RowStrideLaw : Prop :=
  ∀ W N : Nat, 1 ≤ W →
    stride W N % 4 = 0 ∧ W * N ≤ stride W N ∧ stride W N ≤ W * N + 3 ∧
    stride W N - W * N = (4 - W * N % 4) % 4 ∧
    stride W 3 - W * 3 = [0, 1, 2, 3].getD (W % 4) 0 ∧ stride W 1 - W * 1 = [0, 3, 2, 1].getD (W % 4) 0

/-- R81: luma is the exact quotient (R80) and never exceeds 255, keeps gray, and never decreases when one channel
increases. -/
def Obligations.LumaIsExactMonotoneAndKeepsGray : Prop :=
  (∀ r g b : Byte, (luma r g b).toNat = (30 * r.toNat + 59 * g.toNat + 11 * b.toNat) / 100) ∧
  (∀ r g b : Byte, (30 * r.toNat + 59 * g.toNat + 11 * b.toNat) / 100 ≤ 255) ∧
  (∀ v : Byte, luma v v v = v) ∧
  (∀ r r' g b : Byte, r.toNat ≤ r'.toNat → (luma r g b).toNat ≤ (luma r' g b).toNat) ∧
  (∀ r g g' b : Byte, g.toNat ≤ g'.toNat → (luma r g b).toNat ≤ (luma r g' b).toNat) ∧
  (∀ r g b b' : Byte, b.toNat ≤ b'.toNat → (luma r g b).toNat ≤ (luma r g b').toNat)

/-- R35: the kernel table, the divisor, the row sums, the total and the symmetry. -/
def Obligations.KernelSumsAndSymmetry : Prop :=
  kernel = [[1, 4, 7, 4, 1], [4, 16, 26, 16, 4], [7, 26, 41, 26, 7], [4, 16, 26, 16, 4], [1, 4, 7, 4, 1]] ∧
  ksum = 273 ∧ (∑ j ∈ Finset.range 5, ∑ i ∈ Finset.range 5, kernelAt j i) = 273 ∧
  (∀ j < 5, (∑ i ∈ Finset.range 5, kernelAt j i) = [17, 66, 107, 66, 17].getD j 0) ∧
  (∀ j < 5, ∀ i < 5, kernelAt j i = kernelAt i j ∧ kernelAt j i = kernelAt (4 - j) i ∧
    kernelAt j i = kernelAt j (4 - i))

/-- R89: for e > s and T0 ≥ 1 the blocks are not empty, abut, and give every row of [s, e) exactly once. -/
def Obligations.PartitionGivesEveryRowOnce : Prop :=
  ∀ s e t0 : Nat, s < e → 1 ≤ t0 →
    (∀ blk ∈ partition s e t0, blk.1 < blk.2) ∧
    (partition s e t0).IsChain (fun p q => p.2 = q.1) ∧
    (∀ y, (s ≤ y ∧ y < e) ↔ ∃! blk, blk ∈ partition s e t0 ∧ blk.1 ≤ y ∧ y < blk.2) ∧
    (partition s e t0).flatMap blockRows = List.range' s (e - s)

/-! ## Reset -/

/-- R120: the reset input, at any time: every register at its reset value, the engine IDLE, lanes idle, ID and LANES
unchanged, and MEM unchanged when no command runs. The rule leaves the latches unspecified (log 4). -/
def Obligations.ResetInputRestoresRegisters : Prop :=
  ∀ s : State, s.turn = .reset →
    ∃ t, step s = .next t ∧
      t.readOffset 0x08 = 0x00000001#32 ∧
      (∀ off, off ∈ [0x0C, 0x10, 0x14, 0x18, 0x1C, 0x20, 0x24, 0x28, 0x2C, 0x30, 0x34, 0x38] →
        t.readOffset off = 0#32) ∧
      t.readOffset 0x00 = s.readOffset 0x00 ∧ t.readOffset 0x04 = s.readOffset 0x04 ∧
      t.engine = .idle ∧ t.lanePartition = [] ∧
      (s.regs.status.busy = false → t.mem = s.mem)

/-- R121: a reset while RUNNING abandons the command: no byte outside the written region the command would have had
changes, so the source region keeps its bytes; a command that would have ended with an error changes no byte. What the
destination bytes hold is left open. -/
def Obligations.ResetWhileRunningTouchesOnlyTheDestination : Prop :=
  ∀ s t : State, s.mem.wf → s.turn = .reset → s.regs.status.busy = true → step s = .next t →
    t.regs = Regs.reset ∧
    (∀ code info, runCommand s = .err code info → t.mem = s.mem) ∧
    (∀ i ws out, decode s.lat.cmd = .instr i → runInstr i s = .ok ws out →
      (∀ a, (∀ o, out = some o → a < s.db ∨ s.db + o.len ≤ a) → t.mem.read a = s.mem.read a) ∧
      (∀ a, s.sb ≤ a → a < s.sb + sourceLen i s → t.mem.read a = s.mem.read a))

/-- R33, R120 (93_implementation_defined S2): no rule reads the latches before the next acceptance: with BUSY = 0, other
latches give the same step, which either writes all of them (then the states are equal) or leaves them. -/
def Obligations.LatchesAreNotReadBeforeAcceptance : Prop :=
  ∀ (s t : State) (l : Latches), s.regs.status.busy = false → step s = .next t →
    ∃ t', step { s with lat := l } = .next t' ∧
      (t' = t ∨ (t.regs.status.busy = false ∧ t.lat = s.lat ∧ t' = { t with lat := l }))

/-! ## Invariant -/

/-- The machine's invariant (R6, R22, R24, R32, R38, R108, R109): every step of every agent keeps it. -/
def Obligations.StepKeepsTheInvariant : Prop :=
  ∀ s t : State, s.Inv → step s = .next t → t.Inv ∧ t.cfg = s.cfg

/-- R39, R122: power-up has the invariant, for all legal parameters and every content of MEM; so has State.reset. -/
def Obligations.PowerUpHasTheInvariant : Prop :=
  (∀ (c : Config) (m : Memory), c.ok → m.wf → m.below c.memBytes → (State.powerUp c m).Inv) ∧ State.reset.Inv
end

