-- ==== Sys2Proof/Laws/State.lean ====
section
/-! SUPPORT. One lemma per field per update of the state (by rfl, for simp), so that no later proof unfolds a record
update or a completion. -/

namespace Sys2Proof.Machine

variable (s : State)

/-! ## Completion without error (R72) -/

@[simp] theorem completeOk_cfg (ws) (o) : (s.completeOk ws o).cfg = s.cfg := rfl
@[simp] theorem completeOk_lat (ws) (o) : (s.completeOk ws o).lat = s.lat := rfl
@[simp] theorem completeOk_mem (ws) (o) : (s.completeOk ws o).mem = s.mem.apply ws := rfl
@[simp] theorem completeOk_sched (ws) (o) : (s.completeOk ws o).sched = s.sched := rfl
@[simp] theorem completeOk_host (ws) (o) : (s.completeOk ws o).host = s.host := rfl
@[simp] theorem completeOk_draws (ws) (o) : (s.completeOk ws o).draws = s.draws := rfl
@[simp] theorem completeOk_status (ws) (o) : (s.completeOk ws o).regs.status = s.regs.status.completed := rfl
@[simp] theorem completeOk_topdown (ws) (o) : (s.completeOk ws o).regs.topdown = s.regs.topdown := by cases o <;> rfl
@[simp] theorem completeOk_errinfo (ws) (o) : (s.completeOk ws o).regs.errinfo = s.regs.errinfo := by cases o <;> rfl
@[simp] theorem completeOk_srcBase (ws) (o) : (s.completeOk ws o).regs.srcBase = s.regs.srcBase := by cases o <;> rfl
@[simp] theorem completeOk_srcLen (ws) (o) : (s.completeOk ws o).regs.srcLen = s.regs.srcLen := by cases o <;> rfl
@[simp] theorem completeOk_dstBase (ws) (o) : (s.completeOk ws o).regs.dstBase = s.regs.dstBase := by cases o <;> rfl
@[simp] theorem completeOk_dstCap (ws) (o) : (s.completeOk ws o).regs.dstCap = s.regs.dstCap := by cases o <;> rfl
@[simp] theorem completeOk_width (ws) (o) : (s.completeOk ws o).regs.width = s.regs.width := by cases o <;> rfl
@[simp] theorem completeOk_height (ws) (o) : (s.completeOk ws o).regs.height = s.regs.height := by cases o <;> rfl
@[simp] theorem completeOk_outWidth (ws) (o : Out) : (s.completeOk ws (some o)).regs.outWidth = u32 o.w := rfl
@[simp] theorem completeOk_outHeight (ws) (o : Out) : (s.completeOk ws (some o)).regs.outHeight = u32 o.h := rfl
@[simp] theorem completeOk_outLen (ws) (o : Out) : (s.completeOk ws (some o)).regs.outLen = u32 o.len := rfl
@[simp] theorem completeOk_outWidth_none (ws) : (s.completeOk ws none).regs.outWidth = s.regs.outWidth := rfl
@[simp] theorem completeOk_outHeight_none (ws) : (s.completeOk ws none).regs.outHeight = s.regs.outHeight := rfl
@[simp] theorem completeOk_outLen_none (ws) : (s.completeOk ws none).regs.outLen = s.regs.outLen := rfl

/-! ## Completion with an error (R108) -/

@[simp] theorem completeErr_cfg (c) (i) : (s.completeErr c i).cfg = s.cfg := rfl
@[simp] theorem completeErr_lat (c) (i) : (s.completeErr c i).lat = s.lat := rfl
@[simp] theorem completeErr_mem (c) (i) : (s.completeErr c i).mem = s.mem := rfl
@[simp] theorem completeErr_sched (c) (i) : (s.completeErr c i).sched = s.sched := rfl
@[simp] theorem completeErr_host (c) (i) : (s.completeErr c i).host = s.host := rfl
@[simp] theorem completeErr_draws (c) (i) : (s.completeErr c i).draws = s.draws := rfl
@[simp] theorem completeErr_status (c) (i) : (s.completeErr c i).regs.status = s.regs.status.failed c := rfl
@[simp] theorem completeErr_errinfo (c) (i) : (s.completeErr c i).regs.errinfo = i := rfl
@[simp] theorem completeErr_topdown (c) (i) : (s.completeErr c i).regs.topdown = s.regs.topdown := rfl
@[simp] theorem completeErr_srcBase (c) (i) : (s.completeErr c i).regs.srcBase = s.regs.srcBase := rfl
@[simp] theorem completeErr_srcLen (c) (i) : (s.completeErr c i).regs.srcLen = s.regs.srcLen := rfl
@[simp] theorem completeErr_dstBase (c) (i) : (s.completeErr c i).regs.dstBase = s.regs.dstBase := rfl
@[simp] theorem completeErr_dstCap (c) (i) : (s.completeErr c i).regs.dstCap = s.regs.dstCap := rfl
@[simp] theorem completeErr_width (c) (i) : (s.completeErr c i).regs.width = s.regs.width := rfl
@[simp] theorem completeErr_height (c) (i) : (s.completeErr c i).regs.height = s.regs.height := rfl
@[simp] theorem completeErr_outWidth (c) (i) : (s.completeErr c i).regs.outWidth = 0#32 := rfl
@[simp] theorem completeErr_outHeight (c) (i) : (s.completeErr c i).regs.outHeight = 0#32 := rfl
@[simp] theorem completeErr_outLen (c) (i) : (s.completeErr c i).regs.outLen = 0#32 := rfl

/-! ## Acceptance (R68) -/

@[simp] theorem accept_cfg (v) : (s.accept v).cfg = s.cfg := rfl
@[simp] theorem accept_lat (v) : (s.accept v).lat = s.regs.latched v := rfl
@[simp] theorem accept_mem (v) : (s.accept v).mem = s.mem := rfl
@[simp] theorem accept_sched (v) : (s.accept v).sched = s.sched := rfl
@[simp] theorem accept_host (v) : (s.accept v).host = s.host := rfl
@[simp] theorem accept_draws (v) : (s.accept v).draws = s.draws := rfl
@[simp] theorem accept_status (v) : (s.accept v).regs.status = s.regs.status.accepted := rfl
@[simp] theorem accept_errinfo (v) : (s.accept v).regs.errinfo = 0#32 := rfl
@[simp] theorem accept_topdown (v) : (s.accept v).regs.topdown = s.regs.topdown := rfl
@[simp] theorem accept_srcBase (v) : (s.accept v).regs.srcBase = s.regs.srcBase := rfl
@[simp] theorem accept_srcLen (v) : (s.accept v).regs.srcLen = s.regs.srcLen := rfl
@[simp] theorem accept_dstBase (v) : (s.accept v).regs.dstBase = s.regs.dstBase := rfl
@[simp] theorem accept_dstCap (v) : (s.accept v).regs.dstCap = s.regs.dstCap := rfl
@[simp] theorem accept_width (v) : (s.accept v).regs.width = s.regs.width := rfl
@[simp] theorem accept_height (v) : (s.accept v).regs.height = s.regs.height := rfl
@[simp] theorem accept_outWidth (v) : (s.accept v).regs.outWidth = s.regs.outWidth := rfl
@[simp] theorem accept_outHeight (v) : (s.accept v).regs.outHeight = s.regs.outHeight := rfl
@[simp] theorem accept_outLen (v) : (s.accept v).regs.outLen = s.regs.outLen := rfl

/-! ## Updates that touch one field -/

@[simp] theorem takeTurn_cfg : s.takeTurn.cfg = s.cfg := rfl
@[simp] theorem takeTurn_regs : s.takeTurn.regs = s.regs := rfl
@[simp] theorem takeTurn_lat : s.takeTurn.lat = s.lat := rfl
@[simp] theorem takeTurn_mem : s.takeTurn.mem = s.mem := rfl
@[simp] theorem takeTurn_sched : s.takeTurn.sched = s.sched.tail := rfl
@[simp] theorem takeTurn_host : s.takeTurn.host = s.host := rfl
@[simp] theorem takeTurn_draws : s.takeTurn.draws = s.draws := rfl

@[simp] theorem withProg_cfg (p) : (s.withProg p).cfg = s.cfg := rfl
@[simp] theorem withProg_regs (p) : (s.withProg p).regs = s.regs := rfl
@[simp] theorem withProg_lat (p) : (s.withProg p).lat = s.lat := rfl
@[simp] theorem withProg_mem (p) : (s.withProg p).mem = s.mem := rfl
@[simp] theorem withProg_sched (p) : (s.withProg p).sched = s.sched := rfl
@[simp] theorem withProg_prog (p) : (s.withProg p).host.prog = p := rfl
@[simp] theorem withProg_vars (p) : (s.withProg p).host.vars = s.host.vars := rfl
@[simp] theorem withProg_draws (p) : (s.withProg p).draws = s.draws := rfl

@[simp] theorem bindVar_cfg (x v) : (s.bindVar x v).cfg = s.cfg := rfl
@[simp] theorem bindVar_regs (x v) : (s.bindVar x v).regs = s.regs := rfl
@[simp] theorem bindVar_lat (x v) : (s.bindVar x v).lat = s.lat := rfl
@[simp] theorem bindVar_mem (x v) : (s.bindVar x v).mem = s.mem := rfl
@[simp] theorem bindVar_sched (x v) : (s.bindVar x v).sched = s.sched := rfl
@[simp] theorem bindVar_prog (x v) : (s.bindVar x v).host.prog = s.host.prog := rfl
@[simp] theorem bindVar_draws (x v) : (s.bindVar x v).draws = s.draws := rfl

@[simp] theorem resetInput_cfg : s.resetInput.cfg = s.cfg := rfl
@[simp] theorem resetInput_regs : s.resetInput.regs = Regs.reset := rfl
@[simp] theorem resetInput_lat : s.resetInput.lat = freeLatches s.draws := rfl
@[simp] theorem resetInput_mem : s.resetInput.mem = s.memAfterReset := rfl
@[simp] theorem resetInput_sched : s.resetInput.sched = s.sched := rfl
@[simp] theorem resetInput_host : s.resetInput.host = s.host := rfl
@[simp] theorem resetInput_draws : s.resetInput.draws = s.draws + 1 := rfl

/-! ## The operands do not see the fields a command does not read -/

@[simp] theorem takeTurn_header : s.takeTurn.header = s.header := rfl
@[simp] theorem takeTurn_runCommand : runCommand s.takeTurn = runCommand s := rfl
@[simp] theorem withProg_runCommand (p) : runCommand (s.withProg p) = runCommand s := rfl

end Sys2Proof.Machine
end

