-- ==== Sys2Proof/Laws/Memory.lean ====
section
/-! SUPPORT. The laws of the data memory: every operation keeps the canonical form, a read after a write gives the value
written and every other byte is as before, equal reads mean equal memories. -/

namespace Sys2Proof.Machine

/-- An address below every listed one reads as unlisted. -/
theorem memory_read_of_lt {m : Memory} {a : Nat} (h : ∀ c ∈ m, a < c.1) : Memory.read m a = Memory.unlisted := by
  induction m with
  | nil => rfl
  | cons c m ih =>
    have hc := h c (by simp)
    have hm := ih fun d hd => h d (by simp [hd])
    simp only [Memory.read]
    rw [if_neg (by omega)]
    exact hm

theorem memory_wf_tail {c : Host.Cell} {m : Memory} (h : Memory.wf (c :: m)) : Memory.wf m :=
  ⟨(List.pairwise_cons.1 h.1).2, fun d hd => h.2 d (by simp [hd])⟩

theorem memory_wf_head {c : Host.Cell} {m : Memory} (h : Memory.wf (c :: m)) : ∀ d ∈ m, c.1 < d.1 :=
  (List.pairwise_cons.1 h.1).1

/-- Every address a write leaves listed was listed or is the one written. -/
theorem memory_write_addr {m : Memory} {a : Nat} {b : Byte} {c : Host.Cell} (h : c ∈ Memory.write m a b) :
    c ∈ m ∨ c = (a, b) := by
  induction m with
  | nil =>
    simp only [Memory.write] at h
    split at h <;> simp_all
  | cons d m ih =>
    obtain ⟨k, e⟩ := d
    simp only [Memory.write] at h
    split at h
    · split at h
      · exact .inl h
      · simp only [List.mem_cons] at h ⊢; tauto
    · split at h
      · split at h
        · simp [h]
        · simp only [List.mem_cons] at h ⊢; tauto
      · simp only [List.mem_cons] at h ⊢
        rcases h with h | h
        · exact .inl (.inl h)
        · rcases ih h with h | h
          · exact .inl (.inr h)
          · exact .inr h

/-- A write keeps the canonical form. -/
theorem memory_write_wf {m : Memory} (hm : Memory.wf m) (a : Nat) (b : Byte) : Memory.wf (Memory.write m a b) := by
  induction m with
  | nil =>
    simp only [Memory.write]
    split
    · exact hm
    · exact ⟨by simp, by simpa using ‹_›⟩
  | cons c m ih =>
    obtain ⟨k, e⟩ := c
    have htail := memory_wf_tail hm
    have hhead := memory_wf_head hm
    simp only [Memory.write]
    split
    · split
      · exact hm
      · refine ⟨List.pairwise_cons.2 ⟨?_, hm.1⟩, ?_⟩
        · intro d hd
          rcases List.mem_cons.1 hd with rfl | hd
          · assumption
          · have := hhead d hd; simp only at this ⊢; omega
        · intro d hd
          rcases List.mem_cons.1 hd with rfl | hd
          · assumption
          · exact hm.2 d hd
    · split
      · split
        · exact htail
        · refine ⟨List.pairwise_cons.2 ⟨?_, htail.1⟩, ?_⟩
          · intro d hd; have := hhead d hd; simp only at this ⊢; omega
          · intro d hd
            rcases List.mem_cons.1 hd with rfl | hd
            · assumption
            · exact htail.2 d hd
      · have hi := ih htail
        refine ⟨List.pairwise_cons.2 ⟨?_, hi.1⟩, ?_⟩
        · intro d hd
          rcases memory_write_addr hd with hd | rfl
          · exact hhead d hd
          · simp only; omega
        · intro d hd
          rcases List.mem_cons.1 hd with rfl | hd
          · exact hm.2 _ (by simp)
          · exact hi.2 d hd

/-- A write inside the memory keeps every listed address inside it. -/
theorem memory_write_below {m : Memory} {n a : Nat} (hm : Memory.below m n) (ha : a < n) (b : Byte) :
    Memory.below (Memory.write m a b) n := by
  intro c hc
  rcases memory_write_addr hc with hc | rfl
  · exact hm c hc
  · exact ha

/-- Read after write: the written byte at its address, every other byte as before. -/
theorem memory_read_write {m : Memory} (hm : Memory.wf m) (a : Nat) (b : Byte) (x : Nat) :
    Memory.read (Memory.write m a b) x = if x = a then b else Memory.read m x := by
  induction m with
  | nil =>
    simp only [Memory.write]
    split
    · simp only [Memory.read]; split <;> simp_all
    · simp only [Memory.read]
  | cons c m ih =>
    obtain ⟨k, e⟩ := c
    have htail := memory_wf_tail hm
    have hhead := memory_wf_head hm
    simp only [Memory.write]
    split
    · split
      · by_cases hx : x = a
        · subst hx
          rw [if_pos rfl, ‹b = _›]
          apply memory_read_of_lt
          intro d hd
          rcases List.mem_cons.1 hd with rfl | hd
          · assumption
          · have := hhead d hd; simp only at this; omega
        · rw [if_neg hx]
      · simp only [Memory.read]
    · split
      · rename_i hak
        subst hak
        split
        · by_cases hx : x = a
          · subst hx
            rw [if_pos rfl, ‹b = _›]
            exact memory_read_of_lt hhead
          · simp [Memory.read, hx]
        · simp only [Memory.read]; split <;> rfl
      · simp only [Memory.read]
        rw [ih htail]
        split
        · rw [if_neg (by omega)]
        · rfl

theorem memory_apply_cons (m : Memory) (c : Host.Cell) (ws : List Host.Cell) :
    Memory.apply m (c :: ws) = Memory.apply (Memory.write m c.1 c.2) ws := rfl

theorem memory_apply_append (m : Memory) (ws vs : List Host.Cell) :
    Memory.apply m (ws ++ vs) = Memory.apply (Memory.apply m ws) vs := by
  simp [Memory.apply, List.foldl_append]

/-- Applying a command's writes keeps the canonical form. -/
theorem memory_apply_wf {m : Memory} (hm : Memory.wf m) (ws : List Host.Cell) : Memory.wf (Memory.apply m ws) := by
  induction ws generalizing m with
  | nil => exact hm
  | cons c ws ih => exact ih (memory_write_wf hm _ _)

theorem memory_apply_below {m : Memory} {n : Nat} (hm : Memory.below m n) {ws : List Host.Cell}
    (hw : ∀ c ∈ ws, c.1 < n) : Memory.below (Memory.apply m ws) n := by
  induction ws generalizing m with
  | nil => exact hm
  | cons c ws ih =>
    exact ih (memory_write_below hm (hw c (by simp)) _) fun d hd => hw d (by simp [hd])

/-- A byte that no write names is as before. -/
theorem memory_read_apply_other {m : Memory} (hm : Memory.wf m) {ws : List Host.Cell} {x : Nat}
    (h : ∀ c ∈ ws, c.1 ≠ x) : Memory.read (Memory.apply m ws) x = Memory.read m x := by
  induction ws generalizing m with
  | nil => rfl
  | cons c ws ih =>
    rw [memory_apply_cons, ih (memory_write_wf hm _ _) fun d hd => h d (by simp [hd]), memory_read_write hm,
      if_neg fun e => h c (by simp) e.symm]

/-- Where no address is written twice, every written byte reads as the value written. -/
theorem memory_read_apply_written {m : Memory} (hm : Memory.wf m) {ws : List Host.Cell}
    (hn : (ws.map Prod.fst).Nodup) {x : Nat} {b : Byte} (h : (x, b) ∈ ws) :
    Memory.read (Memory.apply m ws) x = b := by
  induction ws generalizing m with
  | nil => simp at h
  | cons c ws ih =>
    rw [List.map_cons, List.nodup_cons] at hn
    have hw := memory_write_wf hm c.1 c.2
    rcases List.mem_cons.1 h with rfl | h
    · rw [memory_apply_cons, memory_read_apply_other hw, memory_read_write hm, if_pos rfl]
      rintro d hd rfl
      exact hn.1 (List.mem_map.2 ⟨d, hd, rfl⟩)
    · exact ih hw hn.2 h

theorem memory_read_head {k : Nat} {e : Byte} (m : Memory) : Memory.read ((k, e) :: m) k = e := by
  simp [Memory.read]

/-- Canonical memories that read the same everywhere are equal data. -/
theorem memory_ext {m n : Memory} (hm : Memory.wf m) (hn : Memory.wf n)
    (h : ∀ a, Memory.read m a = Memory.read n a) : m = n := by
  induction m generalizing n with
  | nil =>
    cases n with
    | nil => rfl
    | cons d n =>
      have := h d.1
      rw [memory_read_head] at this
      exact absurd this.symm (hn.2 d (by simp))
  | cons c m ih =>
    cases n with
    | nil =>
      have := h c.1
      rw [memory_read_head] at this
      exact absurd this (hm.2 c (by simp))
    | cons d n =>
      obtain ⟨k, e⟩ := c
      obtain ⟨l, f⟩ := d
      have hk := h k
      have hl := h l
      rw [memory_read_head] at hk hl
      have hkl : k = l := by
        rcases Nat.lt_trichotomy k l with hlt | heq | hgt
        · rw [memory_read_of_lt] at hk
          · exact absurd hk (hm.2 (k, e) (by simp))
          · intro c hc
            rcases List.mem_cons.1 hc with rfl | hc
            · exact hlt
            · exact Nat.lt_trans hlt (memory_wf_head hn c hc)
        · exact heq
        · rw [memory_read_of_lt] at hl
          · exact absurd hl.symm (hn.2 (l, f) (by simp))
          · intro c hc
            rcases List.mem_cons.1 hc with rfl | hc
            · exact hgt
            · exact Nat.lt_trans hgt (memory_wf_head hm c hc)
      subst hkl
      rw [memory_read_head] at hk
      subst hk
      congr 1
      refine ih (memory_wf_tail hm) (memory_wf_tail hn) fun a => ?_
      by_cases ha : a = k
      · subst ha
        rw [memory_read_of_lt (memory_wf_head hm), memory_read_of_lt (memory_wf_head hn)]
      · have := h a
        simpa [Memory.read, ha] using this

/-- The addresses of consecutive byte writes. -/
theorem cellsAt_addr {a : Nat} {bs : List Byte} {c : Host.Cell} (h : c ∈ cellsAt a bs) :
    a ≤ c.1 ∧ c.1 < a + bs.length := by
  induction bs generalizing a with
  | nil => simp [cellsAt] at h
  | cons b bs ih =>
    rcases List.mem_cons.1 h with rfl | h
    · simp
    · have := ih h; simp only [List.length_cons]; omega

/-- Byte `k` of a run of byte writes from `a`. -/
theorem mem_cellsAt {a : Nat} {bs : List Byte} {k : Nat} (hk : k < bs.length) : (a + k, bs[k]) ∈ cellsAt a bs := by
  induction bs generalizing a k with
  | nil => simp at hk
  | cons b bs ih =>
    cases k with
    | zero => simp [cellsAt]
    | succ k =>
      have := ih (a := a + 1) (k := k) (by simpa using hk)
      simp only [cellsAt, List.mem_cons, List.getElem_cons_succ]
      right
      rwa [show a + (k + 1) = a + 1 + k by omega]

theorem cellsAt_nodup (a : Nat) (bs : List Byte) : ((cellsAt a bs).map Prod.fst).Nodup := by
  induction bs generalizing a with
  | nil => simp [cellsAt]
  | cons b bs ih =>
    rw [cellsAt, List.map_cons, List.nodup_cons]
    refine ⟨fun h => ?_, ih _⟩
    obtain ⟨c, hc, he⟩ := List.mem_map.1 h
    have := cellsAt_addr hc
    omega

theorem leBytes_length (n v : Nat) : (leBytes n v).length = n := by
  induction n generalizing v with
  | zero => rfl
  | succ n ih => simp [leBytes, ih]

/-- The bytes read one by one decide a little-endian read. -/
theorem readLE_congr {m m' : Memory} {a n : Nat} (h : ∀ k < n, Memory.read m (a + k) = Memory.read m' (a + k)) :
    Memory.readLE m a n = Memory.readLE m' a n := by
  induction n generalizing a with
  | zero => rfl
  | succ n ih =>
    simp only [Memory.readLE]
    rw [show Memory.read m a = Memory.read m' a from h 0 (by omega),
      ih fun k hk => by have := h (k + 1) (by omega); rwa [show a + (k + 1) = a + 1 + k by omega] at this]

/-- Byte `k` of a little-endian encoding (R10). -/
theorem leBytes_get {n v k : Nat} (hk : k < n) : ((leBytes n v)[k]'(by rw [leBytes_length]; exact hk)).toNat = v / 2 ^ (8 * k) % 256 := by
  induction n generalizing v k with
  | zero => omega
  | succ n ih =>
    cases k with
    | zero => simp [leBytes]
    | succ k =>
      simp only [leBytes, List.getElem_cons_succ]
      rw [ih (by omega), Nat.div_div_eq_div_mul]
      congr 2
      rw [show 8 * (k+1) = 8 + 8 * k by ring, Nat.pow_add]

/-- Bytes that encode `v` read as `v` cut to their number (R10). -/
theorem readLE_of_bytes {m : Memory} {a n v : Nat} (h : ∀ k < n, (m.read (a + k)).toNat = v / 2 ^ (8 * k) % 256) :
    m.readLE a n = v % 256 ^ n := by
  induction n generalizing a v with
  | zero => simp [Memory.readLE, Nat.mod_one]
  | succ n ih =>
    rw [Memory.readLE, ih (a := a + 1) (v := v / 256)]
    · have := h 0 (by omega)
      simp only [Nat.add_zero, Nat.mul_zero, Nat.pow_zero, Nat.div_one] at this
      rw [this, Nat.pow_succ, Nat.mul_comm (256 ^ n), Nat.mod_mul]
    · intro k hk
      have := h (k+1) (by omega)
      rw [show a + (k + 1) = a + 1 + k by omega] at this
      rw [this, Nat.div_div_eq_div_mul]
      congr 2
      rw [show 8 * (k+1) = 8 + 8 * k by ring, Nat.pow_add]

end Sys2Proof.Machine
end

