-- ==== Sys2Proof/Laws/Lanes.lean ====
section
/-! SUPPORT. The lane partition gives every row once, in order, so a parallel phase is a plain run over the rows
(spec/42_lanes.md R88, R89). -/

namespace Sys2Proof.Machine

/-- Abutting blocks of size `bs` list the rows from `s` up. -/
theorem blocks_rows (s bs : Nat) (k : Nat) :
    ((List.range k).map fun i => (s + i * bs, s + (i + 1) * bs)).flatMap blockRows = List.range' s (k * bs) := by
  induction k with
  | zero => simp
  | succ k ih =>
    rw [List.range_succ, List.map_append, List.flatMap_append, ih]
    simp only [List.map_cons, List.map_nil, List.flatMap_cons, List.flatMap_nil, List.append_nil, blockRows]
    rw [show s + (k + 1) * bs - (s + k * bs) = bs by rw [Nat.succ_mul]; omega, List.range'_append_1, Nat.succ_mul]

/-- The rows a partition gives out are the rows of the range, each once, rising. -/
theorem partition_rows (s e t0 : Nat) : (partition s e t0).flatMap blockRows = List.range' s (e - s) := by
  unfold partition
  split
  · rw [show e - s = 0 by omega]; simp
  · simp only
    rw [List.flatMap_append, blocks_rows]
    generalize ht : max 1 (min t0 (e - s)) = t
    have ht1 : 1 ≤ t := by omega
    have hle : (t - 1) * ((e - s) / t) ≤ e - s :=
      Nat.le_trans (Nat.mul_le_mul_right _ (Nat.sub_le _ _)) (Nat.mul_div_le _ _)
    simp only [List.flatMap_cons, List.flatMap_nil, List.append_nil, blockRows]
    rw [List.range'_append_1]
    congr 1
    omega

/-- A parallel phase is a run over the rows; the number of lanes does not matter. -/
theorem parallelRows_eq (s e t0 : Nat) (row : Nat → List Host.Cell) :
    parallelRows s e t0 row = (List.range' s (e - s)).flatMap row := by
  rw [← partition_rows s e t0, List.flatMap_assoc, parallelRows]

theorem parallelRows_zero (e t0 : Nat) (row : Nat → List Host.Cell) :
    parallelRows 0 e t0 row = (List.range e).flatMap row := by
  rw [parallelRows_eq, List.range_eq_range', Nat.sub_zero]

/-- `flatMap` over rows keeps addresses distinct when each row does and rows do not share one. -/
theorem rows_nodup {rows : List Nat} (hr : rows.Nodup) {row : Nat → List Host.Cell}
    (h1 : ∀ y ∈ rows, ((row y).map Prod.fst).Nodup)
    (h2 : ∀ y ∈ rows, ∀ z ∈ rows, ∀ c ∈ row y, ∀ d ∈ row z, c.1 = d.1 → y = z) :
    ((rows.flatMap row).map Prod.fst).Nodup := by
  induction rows with
  | nil => simp
  | cons y ys ih =>
    rw [List.nodup_cons] at hr
    rw [List.flatMap_cons, List.map_append, List.nodup_append]
    refine ⟨h1 y (by simp), ih hr.2 (fun z hz => h1 z (by simp [hz]))
      (fun z hz w hw => h2 z (by simp [hz]) w (by simp [hw])), ?_⟩
    rintro a ha b hb rfl
    obtain ⟨c, hc, rfl⟩ := List.mem_map.1 ha
    obtain ⟨d, hd, he⟩ := List.mem_map.1 hb
    obtain ⟨z, hz, hd⟩ := List.mem_flatMap.1 hd
    exact hr.1 (h2 y (by simp) z (by simp [hz]) c hc d hd he.symm ▸ hz)

theorem mem_blockRows {blk : Nat × Nat} {y : Nat} : y ∈ blockRows blk ↔ blk.1 ≤ y ∧ y < blk.2 := by
  unfold blockRows; rw [List.mem_range'_1]; omega

/-- Every block of a partition over at least one lane has a row. -/
theorem partition_nonempty {s e t0 : Nat} (h : s < e) : ∀ blk ∈ partition s e t0, blk.1 < blk.2 := by
  unfold partition
  rw [if_neg (by omega)]
  generalize ht : max 1 (min t0 (e - s)) = t
  have h1 : 1 ≤ t := by omega
  have h2 : t ≤ e - s := by omega
  have h3 : 1 ≤ (e - s) / t := (Nat.one_le_div_iff (by omega)).2 h2
  intro blk hb
  simp only [ht] at hb
  rcases List.mem_append.1 hb with hb | hb
  · obtain ⟨k, -, rfl⟩ := List.mem_map.1 hb
    simp only; rw [Nat.succ_mul]; omega
  · simp only [List.mem_singleton] at hb; subst hb
    simp only
    have : t * ((e - s) / t) ≤ e - s := Nat.mul_div_le _ _
    obtain ⟨u, rfl⟩ : ∃ u, t = u + 1 := ⟨t - 1, by omega⟩
    rw [Nat.succ_mul] at this
    rw [Nat.add_sub_cancel]
    omega

end Sys2Proof.Machine
end

