-- ==== Sys2Proof/Laws/Checks.lean ====
section
/-! SUPPORT. When no check of a command fails, in the terms of Safety.lean; and the command function then. -/

namespace Sys2Proof.Machine

theorem firstFailure_none {cs : List Check} : firstFailure cs = none ↔ ∀ c ∈ cs, c.fails = false := by
  induction cs with
  | nil => simp [firstFailure]
  | cons c cs ih =>
    simp only [firstFailure]
    split <;> simp_all

/-- The failure reported is one of the list's checks, and fails. -/
theorem firstFailure_some {cs : List Check} {c : Check} (h : firstFailure cs = some c) : c ∈ cs ∧ c.fails = true := by
  induction cs with
  | nil => simp [firstFailure] at h
  | cons d cs ih =>
    simp only [firstFailure] at h
    split at h
    · cases h; simp_all
    · exact ⟨List.mem_cons_of_mem _ (ih h).1, (ih h).2⟩

theorem overlaps_false {a m b n : Nat} (hm : 0 < m) (hn : 0 < n) : overlaps a m b n = false ↔ apart a m b n := by
  simp only [overlaps, apart, Bool.and_eq_false_iff, decide_eq_false_iff_not]
  omega

theorem stride_pos {w n : Nat} (hw : 0 < w * n) : 0 < stride w n := by unfold stride; omega

theorem le_stride (w n : Nat) : w * n ≤ stride w n := by unfold stride; omega

theorem transformChecks_none (s : State) : firstFailure (transformChecks s) = none ↔ TransformOk s := by
  rw [firstFailure_none]
  simp only [transformChecks, List.forall_mem_cons, List.not_mem_nil, false_imp_iff, implies_true, and_true,
    decide_eq_false_iff_not, Bool.not_eq_false', validRegion, decide_eq_true_eq, Int.not_le, Nat.not_lt]
  constructor
  · rintro ⟨h1, h2, h3, h4, h5, h6⟩
    have : 0 < s.imgW * s.imgH := Nat.mul_pos (by unfold State.imgW; omega) (by unfold State.imgH; omega)
    exact ⟨h1, h2, h3, h4, h5, (overlaps_false this this).1 h6⟩
  · rintro ⟨h1, h2, h3, h4, h5, h6⟩
    have : 0 < s.imgW * s.imgH := Nat.mul_pos (by unfold State.imgW; omega) (by unfold State.imgH; omega)
    exact ⟨h1, h2, h3, h4, h5, (overlaps_false this this).2 h6⟩

theorem encodeChecks_none (s : State) : firstFailure (encodeChecks s) = none ↔ EncodeOk s := by
  rw [firstFailure_none]
  simp only [encodeChecks, List.forall_mem_cons, List.not_mem_nil, false_imp_iff, implies_true, and_true,
    decide_eq_false_iff_not, Bool.not_eq_false', validRegion, decide_eq_true_eq, Int.not_le, Nat.not_lt]
  unfold fileSize imageSize
  constructor
  · rintro ⟨h1, h2, h3, h4, h5, h6⟩
    have : 0 < s.imgW * s.imgH := Nat.mul_pos (by unfold State.imgW; omega) (by unfold State.imgH; omega)
    exact ⟨h1, h2, h3, h4, h5, (overlaps_false this (by omega)).1 h6⟩
  · rintro ⟨h1, h2, h3, h4, h5, h6⟩
    have : 0 < s.imgW * s.imgH := Nat.mul_pos (by unfold State.imgW; omega) (by unfold State.imgH; omega)
    exact ⟨h1, h2, h3, h4, h5, (overlaps_false this (by omega)).2 h6⟩

theorem header_wn_pos {h : Header} (hw : 0 < h.w) : 0 < h.wn := by unfold Header.wn; omega

theorem header_hn_pos {h : Header} (hh : h.hs ≠ 0) : 0 < h.hn := by unfold Header.hn; omega

theorem decodeChecks_none (s : State) : firstFailure (decodeChecks s) = none ↔ DecodeOk s := by
  rw [firstFailure_none]
  simp only [decodeChecks, List.forall_mem_cons, List.not_mem_nil, false_imp_iff, implies_true, and_true,
    decide_eq_false_iff_not, Bool.not_eq_false', Bool.or_eq_false_iff, validRegion, decide_eq_true_eq, Int.not_le,
    Nat.not_lt, bne_eq_false_iff_eq, beq_eq_false_iff_ne]
  constructor
  · rintro ⟨h1, h2, ⟨-, h3⟩, h4, h5, h6, h7, ⟨h8, h8'⟩, h9, h10, h11⟩
    have : 0 < s.header.wn * s.header.hn := Nat.mul_pos (header_wn_pos h7) (header_hn_pos h8)
    exact ⟨h1, h2, h4, h3, h5, h6, h7, h8, h8', h9, h10, (overlaps_false (by omega) this).1 h11⟩
  · rintro ⟨h1, h2, h4, h3, h5, h6, h7, h8, h8', h9, h10, h11⟩
    have : 0 < s.header.wn * s.header.hn := Nat.mul_pos (header_wn_pos h7) (header_hn_pos h8)
    exact ⟨h1, h2, ⟨by omega, h3⟩, h4, h5, h6, h7, ⟨h8, h8'⟩, h9, h10, (overlaps_false (by omega) this).2 h11⟩

/-! ## The command function when no check fails -/

theorem runDecode_ok {s : State} (h : DecodeOk s) :
    runDecode s = .ok ((List.range s.header.hn).flatMap (decodeRow s))
      (some ⟨s.header.wn, s.header.hn, s.header.wn * s.header.hn⟩) := by
  simp only [runDecode, (decodeChecks_none s).2 h, parallelRows_zero]

theorem runEncode_ok {s : State} (h : EncodeOk s) :
    runEncode s = .ok (encodeWrites s) (some ⟨s.imgW, s.imgH, fileSize s.imgW s.imgH⟩) := by
  simp only [runEncode, (encodeChecks_none s).2 h]

theorem runRotate_ok {s : State} (index) (h : TransformOk s) :
    runRotate s index = .ok ((List.range s.imgH).flatMap (rotateRow s index))
      (some ⟨s.imgH, s.imgW, s.imgW * s.imgH⟩) := by
  simp only [runRotate, (transformChecks_none s).2 h, parallelRows_zero]

theorem runBlur_ok {s : State} (h : TransformOk s) :
    runBlur s = .ok ((List.range' 2 (s.imgH - 2 - 2)).flatMap (blurInteriorRow s) ++
        (List.range s.imgH).flatMap (blurBorderRow s))
      (some ⟨s.imgW, s.imgH, s.imgW * s.imgH⟩) := by
  simp only [runBlur, (transformChecks_none s).2 h, parallelRows_eq]

/-- When a check fails the command ends with that check's error. -/
theorem runDecode_err {s : State} {c : Check} (h : firstFailure (decodeChecks s) = some c) :
    runDecode s = .err c.code c.info := by simp only [runDecode, h]

theorem runEncode_err {s : State} {c : Check} (h : firstFailure (encodeChecks s) = some c) :
    runEncode s = .err c.code c.info := by simp only [runEncode, h]

theorem runRotate_err {s : State} {c : Check} (index) (h : firstFailure (transformChecks s) = some c) :
    runRotate s index = .err c.code c.info := by simp only [runRotate, h]

theorem runBlur_err {s : State} {c : Check} (h : firstFailure (transformChecks s) = some c) :
    runBlur s = .err c.code c.info := by simp only [runBlur, h]

/-- The error codes of the check lists are proper codes. -/
theorem checks_code_ne_none (s : State) :
    (∀ c ∈ decodeChecks s, c.code ≠ .none) ∧ (∀ c ∈ encodeChecks s, c.code ≠ .none) ∧
      (∀ c ∈ transformChecks s, c.code ≠ .none) := by
  simp [decodeChecks, encodeChecks, transformChecks]

/-- The first check fails: it is the one reported. -/
theorem firstFailure_cons_fails {c : Check} {cs} (h : c.fails = true) : firstFailure (c :: cs) = some c := by simp [firstFailure, h]

/-- The first check holds: the rest decide. -/
theorem firstFailure_cons_holds {c : Check} {cs} (h : c.fails = false) : firstFailure (c :: cs) = firstFailure cs := by simp [firstFailure, h]

theorem overlaps_true {a m b n : Nat} (hm : 0 < m) (hn : 0 < n) : overlaps a m b n = true ↔ (a < b + n ∧ b < a + m) := by
  simp [overlaps, hm, hn]

theorem imgArea_pos {s : State} (h1 : 0 < s.latW) (h2 : 0 < s.latH) : 0 < s.imgW * s.imgH :=
  Nat.mul_pos (by unfold State.imgW; omega) (by unfold State.imgH; omega)

end Sys2Proof.Machine
end

