-- ==== Sys2Proof/Laws/Commands.lean ====
section
/-! SUPPORT. What each command writes: where (inside its written region, no address twice) and what; and one lemma that
says everything the command function can answer. -/

namespace Sys2Proof.Machine

/-! ## Grids of writes -/

/-- The writes of a grid: for each row `y`, for each column `x`, byte `val x y` at `db + idx x y`. -/
theorem grid_nodup {W H db : Nat} {idx : Nat → Nat → Nat} {val : Nat → Nat → Byte}
    (hinj : ∀ x < W, ∀ y < H, ∀ x' < W, ∀ y' < H, idx x y = idx x' y' → x = x' ∧ y = y') :
    (((List.range H).flatMap fun y => (List.range W).map fun x => (db + idx x y, val x y)).map Prod.fst).Nodup := by
  refine rows_nodup List.nodup_range ?_ ?_
  · intro y hy
    rw [List.map_map]
    refine List.Nodup.map_on ?_ List.nodup_range
    intro x hx x' hx' he
    simp only [Function.comp_apply, Nat.add_left_cancel_iff] at he
    exact (hinj x (List.mem_range.1 hx) y (List.mem_range.1 hy) x' (List.mem_range.1 hx') y (List.mem_range.1 hy) he).1
  · intro y hy z hz c hc d hd he
    obtain ⟨x, hx, rfl⟩ := List.mem_map.1 hc
    obtain ⟨x', hx', rfl⟩ := List.mem_map.1 hd
    simp only [Nat.add_left_cancel_iff] at he
    exact (hinj x (List.mem_range.1 hx) y (List.mem_range.1 hy) x' (List.mem_range.1 hx') z (List.mem_range.1 hz) he).2

theorem mem_grid {W H db : Nat} {idx : Nat → Nat → Nat} {val : Nat → Nat → Byte} {c : Host.Cell} :
    c ∈ ((List.range H).flatMap fun y => (List.range W).map fun x => (db + idx x y, val x y)) ↔
      ∃ x < W, ∃ y < H, c = (db + idx x y, val x y) := by
  simp only [List.mem_flatMap, List.mem_range, List.mem_map]
  constructor
  · rintro ⟨y, hy, x, hx, rfl⟩; exact ⟨x, hx, y, hy, rfl⟩
  · rintro ⟨x, hx, y, hy, rfl⟩; exact ⟨y, hy, x, hx, rfl⟩

/-- Row-major index: inside the buffer and one-to-one (R12, R65). -/
theorem rowMajor_lt {W H x y : Nat} (hx : x < W) (hy : y < H) : y * W + x < W * H := by
  have : (y + 1) * W ≤ H * W := Nat.mul_le_mul_right _ hy
  rw [Nat.succ_mul, Nat.mul_comm H W] at this
  omega

theorem rowMajor_inj {W x y x' y' : Nat} (hx : x < W) (hx' : x' < W) (h : y * W + x = y' * W + x') :
    x = x' ∧ y = y' := by
  have hpos : 0 < W := by omega
  have h1 : (W * y + x) / W = (W * y' + x') / W := by rw [Nat.mul_comm W y, Nat.mul_comm W y', h]
  rw [Nat.mul_add_div hpos, Nat.mul_add_div hpos, Nat.div_eq_of_lt hx, Nat.div_eq_of_lt hx'] at h1
  have hy : y = y' := by omega
  subst hy
  exact ⟨by omega, rfl⟩

theorem cwIndex_lt {W H x y : Nat} (hx : x < W) (hy : y < H) : cwIndex H x y < W * H := by
  unfold cwIndex
  have := rowMajor_lt (W := H) (H := W) (x := H - 1 - y) (y := x) (by omega) hx
  rwa [Nat.mul_comm W H]

theorem cwIndex_inj {H x y x' y' : Nat} (hy : y < H) (hy' : y' < H) (h : cwIndex H x y = cwIndex H x' y') :
    x = x' ∧ y = y' := by
  unfold cwIndex at h
  have := rowMajor_inj (W := H) (x := H - 1 - y) (x' := H - 1 - y') (by omega) (by omega) h
  exact ⟨this.2, by omega⟩

theorem ccwIndex_lt {W H x y : Nat} (hx : x < W) (hy : y < H) : ccwIndex W H x y < W * H := by
  unfold ccwIndex
  have := rowMajor_lt (W := H) (H := W) (x := y) (y := W - 1 - x) hy (by omega)
  rwa [Nat.mul_comm W H]

theorem ccwIndex_inj {W H x y x' y' : Nat} (hx : x < W) (hx' : x' < W) (hy : y < H) (hy' : y' < H)
    (h : ccwIndex W H x y = ccwIndex W H x' y') : x = x' ∧ y = y' := by
  unfold ccwIndex at h
  have := rowMajor_inj (W := H) hy hy' h
  exact ⟨by omega, this.1⟩

/-! ## What a list of writes is to a region -/

/-- The writes stay in `(db, len)` and name no address twice. -/
structure WritesIn (ws : List Host.Cell) (db len : Nat) : Prop where
  inside : ∀ c ∈ ws, db ≤ c.1 ∧ c.1 < db + len
  nodup : (ws.map Prod.fst).Nodup

theorem decode_writesIn (s : State) :
    WritesIn ((List.range s.header.hn).flatMap (decodeRow s)) s.db (s.header.wn * s.header.hn) := by
  have hrow : decodeRow s = fun y => (List.range s.header.wn).map fun x =>
      (s.db + (y * s.header.wn + x), decodedPix s x y) := by
    funext y; simp [decodeRow, Nat.add_assoc]
  rw [hrow]
  refine ⟨fun c hc => ?_, grid_nodup fun x hx y _ x' hx' y' _ he => rowMajor_inj hx hx' he⟩
  obtain ⟨x, hx, y, hy, rfl⟩ := mem_grid.1 hc
  have := rowMajor_lt hx hy
  simp only; omega

theorem decode_mem_writes {s : State} {x y : Nat} (hx : x < s.header.wn) (hy : y < s.header.hn) :
    (s.db + y * s.header.wn + x, decodedPix s x y) ∈ (List.range s.header.hn).flatMap (decodeRow s) :=
  List.mem_flatMap.2 ⟨y, List.mem_range.2 hy, List.mem_map.2 ⟨x, List.mem_range.2 hx, rfl⟩⟩

theorem rotate_writesIn {s : State} {index : Nat → Nat → Nat}
    (hlt : ∀ x < s.imgW, ∀ y < s.imgH, index x y < s.imgW * s.imgH)
    (hinj : ∀ x < s.imgW, ∀ y < s.imgH, ∀ x' < s.imgW, ∀ y' < s.imgH, index x y = index x' y' → x = x' ∧ y = y') :
    WritesIn ((List.range s.imgH).flatMap (rotateRow s index)) s.db (s.imgW * s.imgH) := by
  refine ⟨fun c hc => ?_, grid_nodup hinj⟩
  obtain ⟨x, hx, y, hy, rfl⟩ := mem_grid.1 hc
  have := hlt x hx y hy
  simp only; omega

theorem rotate_mem_writes {s : State} (index : Nat → Nat → Nat) {x y : Nat} (hx : x < s.imgW) (hy : y < s.imgH) :
    (s.db + index x y, s.srcPix x y) ∈ (List.range s.imgH).flatMap (rotateRow s index) :=
  List.mem_flatMap.2 ⟨y, List.mem_range.2 hy, List.mem_map.2 ⟨x, List.mem_range.2 hx, rfl⟩⟩

theorem rotcw_writesIn (s : State) :
    WritesIn ((List.range s.imgH).flatMap (rotateRow s (cwIndex s.imgH))) s.db (s.imgW * s.imgH) :=
  rotate_writesIn (fun _ hx _ hy => cwIndex_lt hx hy) (fun _ _ _ hy _ _ _ hy' he => cwIndex_inj hy hy' he)

theorem rotccw_writesIn (s : State) :
    WritesIn ((List.range s.imgH).flatMap (rotateRow s (ccwIndex s.imgW s.imgH))) s.db (s.imgW * s.imgH) :=
  rotate_writesIn (fun _ hx _ hy => ccwIndex_lt hx hy) (fun _ hx _ hy _ hx' _ hy' he => ccwIndex_inj hx hx' hy hy' he)

/-! ## BLUR -/

/-- The writes of BLUR: interior pass, then border pass. -/
abbrev blurWrites (s : State) : List Host.Cell :=
  (List.range' 2 (s.imgH - 2 - 2)).flatMap (blurInteriorRow s) ++ (List.range s.imgH).flatMap (blurBorderRow s)

theorem isBorder_false {w h x y : Nat} : isBorder w h x y = false ↔ (2 ≤ x ∧ x + 2 < w) ∧ (2 ≤ y ∧ y + 2 < h) := by
  simp only [isBorder, Bool.or_eq_false_iff, decide_eq_false_iff_not]; omega

theorem mem_blurInterior {s : State} {c : Host.Cell} :
    c ∈ (List.range' 2 (s.imgH - 2 - 2)).flatMap (blurInteriorRow s) ↔
      ∃ x y, isBorder s.imgW s.imgH x y = false ∧ c = (s.db + y * s.imgW + x, gauss s.srcPix x y) := by
  simp only [List.mem_flatMap, blurInteriorRow, List.mem_map, List.mem_range'_1, isBorder_false]
  constructor
  · rintro ⟨y, hy, x, hx, rfl⟩; exact ⟨x, y, ⟨by omega, by omega⟩, rfl⟩
  · rintro ⟨x, y, ⟨hx, hy⟩, rfl⟩; exact ⟨y, by omega, x, by omega, rfl⟩

theorem mem_blurBorder {s : State} {c : Host.Cell} :
    c ∈ (List.range s.imgH).flatMap (blurBorderRow s) ↔
      ∃ x < s.imgW, ∃ y < s.imgH, isBorder s.imgW s.imgH x y = true ∧
        c = (s.db + y * s.imgW + x, s.srcPix x y) := by
  simp only [List.mem_flatMap, blurBorderRow, List.mem_map, List.mem_filter, List.mem_range]
  constructor
  · rintro ⟨y, hy, x, ⟨hx, hb⟩, rfl⟩; exact ⟨x, hx, y, hy, hb, rfl⟩
  · rintro ⟨x, hx, y, hy, hb, rfl⟩; exact ⟨y, hy, x, ⟨hx, hb⟩, rfl⟩

theorem blur_writesIn (s : State) : WritesIn (blurWrites s) s.db (s.imgW * s.imgH) := by
  constructor
  · intro c hc
    rcases List.mem_append.1 hc with hc | hc
    · obtain ⟨x, y, hb, rfl⟩ := mem_blurInterior.1 hc
      rw [isBorder_false] at hb
      have := rowMajor_lt (W := s.imgW) (H := s.imgH) (x := x) (y := y) (by omega) (by omega)
      simp only; omega
    · obtain ⟨x, hx, y, hy, -, rfl⟩ := mem_blurBorder.1 hc
      have := rowMajor_lt hx hy
      simp only; omega
  · have key : ∀ {x y x' y' : Nat}, x < s.imgW → x' < s.imgW →
        s.db + y * s.imgW + x = s.db + y' * s.imgW + x' → x = x' ∧ y = y' :=
      fun hx hx' he => rowMajor_inj hx hx' (by omega)
    rw [List.map_append, List.nodup_append]
    refine ⟨?_, ?_, ?_⟩
    · refine rows_nodup List.nodup_range' ?_ ?_
      · intro y _
        rw [blurInteriorRow, List.map_map]
        refine List.Nodup.map_on ?_ List.nodup_range'
        intro x _ x' _ he
        simp only [Function.comp_apply] at he
        omega
      · intro y _ z _ c hc d hd he
        obtain ⟨x, hx, rfl⟩ := List.mem_map.1 hc
        obtain ⟨x', hx', rfl⟩ := List.mem_map.1 hd
        simp only [List.mem_range'_1] at hx hx'
        exact (key (by omega) (by omega) he).2
    · refine rows_nodup List.nodup_range ?_ ?_
      · intro y _
        rw [blurBorderRow, List.map_map]
        refine List.Nodup.map_on ?_ (List.nodup_range.filter _)
        intro x _ x' _ he
        simp only [Function.comp_apply] at he
        omega
      · intro y _ z _ c hc d hd he
        obtain ⟨x, hx, rfl⟩ := List.mem_map.1 hc
        obtain ⟨x', hx', rfl⟩ := List.mem_map.1 hd
        simp only [List.mem_filter, List.mem_range] at hx hx'
        exact (key hx.1 hx'.1 he).2
    · rintro a ha b hb rfl
      obtain ⟨c, hc, rfl⟩ := List.mem_map.1 ha
      obtain ⟨d, hd, he⟩ := List.mem_map.1 hb
      obtain ⟨x, y, hb1, rfl⟩ := mem_blurInterior.1 hc
      obtain ⟨x', hx', y', hy', hb2, rfl⟩ := mem_blurBorder.1 hd
      have hin := isBorder_false.1 hb1
      obtain ⟨rfl, rfl⟩ := key hx' (by omega) he
      rw [hb1] at hb2
      cases hb2

theorem blur_mem_writes {s : State} {x y : Nat} (hx : x < s.imgW) (hy : y < s.imgH) :
    (s.db + y * s.imgW + x, blurredPix s x y) ∈ blurWrites s := by
  unfold blurredPix
  cases hb : isBorder s.imgW s.imgH x y with
  | false => exact List.mem_append_left _ (mem_blurInterior.2 ⟨x, y, hb, by simp⟩)
  | true => exact List.mem_append_right _ (mem_blurBorder.2 ⟨x, hx, y, hy, hb, by simp⟩)

/-! ## ENCODE -/

theorem encodeHeader_length (w h : Nat) : (encodeHeader w h).length = 54 := by
  simp [encodeHeader, fieldBytes, headerFields, leBytes_length]

theorem encodeRow_length (s : State) (r : Nat) : (encodeRow s r).length = stride s.imgW 1 := by
  have := le_stride s.imgW 1
  simp [encodeRow]; omega

theorem encode_parts {s : State} {c : Host.Cell} (h : c ∈ encodeWrites s) :
    (c ∈ cellsAt s.db (encodeHeader s.imgW s.imgH) ∧ c.1 < s.db + 54) ∨
    (∃ i < 256, c ∈ cellsAt (s.db + 54 + 4 * i) (paletteEntry i) ∧ s.db + 54 + 4 * i ≤ c.1 ∧
      c.1 < s.db + 54 + 4 * i + 4) ∨
    (∃ r < s.imgH, c ∈ cellsAt (s.db + 1078 + r * stride s.imgW 1) (encodeRow s r) ∧
      s.db + 1078 + r * stride s.imgW 1 ≤ c.1 ∧ c.1 < s.db + 1078 + r * stride s.imgW 1 + stride s.imgW 1) := by
  simp only [encodeWrites, List.mem_append, List.mem_flatMap, List.mem_range] at h
  rcases h with (h | ⟨i, hi, h⟩) | ⟨r, hr, h⟩
  · have := cellsAt_addr h
    rw [encodeHeader_length] at this
    exact .inl ⟨h, by omega⟩
  · have := cellsAt_addr h
    exact .inr (.inl ⟨i, hi, h, by simpa [paletteEntry] using this⟩)
  · have := cellsAt_addr h
    rw [encodeRow_length] at this
    exact .inr (.inr ⟨r, hr, h, this⟩)

theorem encode_writesIn (s : State) : WritesIn (encodeWrites s) s.db (fileSize s.imgW s.imgH) := by
  constructor
  · intro c hc
    have hc' := hc
    rcases encode_parts hc with ⟨h, h'⟩ | ⟨i, hi, h, h1, h2⟩ | ⟨r, hr, h, h1, h2⟩
    · have := cellsAt_addr h; unfold fileSize; omega
    · unfold fileSize; omega
    · have : r * stride s.imgW 1 + stride s.imgW 1 ≤ stride s.imgW 1 * s.imgH := by
        rw [← Nat.succ_mul, Nat.mul_comm (stride s.imgW 1)]; exact Nat.mul_le_mul_right _ hr
      unfold fileSize imageSize; omega
  · have hrow : ∀ r r' : Nat, r < r' → r * stride s.imgW 1 + stride s.imgW 1 ≤ r' * stride s.imgW 1 := by
      intro r r' h; rw [← Nat.succ_mul]; exact Nat.mul_le_mul_right _ h
    unfold encodeWrites
    rw [List.map_append, List.map_append, List.nodup_append, List.nodup_append]
    refine ⟨⟨cellsAt_nodup _ _, ?_, ?_⟩, ?_, ?_⟩
    · refine rows_nodup List.nodup_range (fun i _ => cellsAt_nodup _ _) ?_
      intro i _ j _ c hc d hd he
      have h1 := cellsAt_addr hc
      have h2 := cellsAt_addr hd
      simp only [paletteEntry, List.length_cons, List.length_nil] at h1 h2
      omega
    · rintro a ha b hb rfl
      obtain ⟨c, hc, rfl⟩ := List.mem_map.1 ha
      obtain ⟨d, hd, he⟩ := List.mem_map.1 hb
      obtain ⟨i, -, hd⟩ := List.mem_flatMap.1 hd
      have h1 := cellsAt_addr hc
      have h2 := cellsAt_addr hd
      rw [encodeHeader_length] at h1
      omega
    · refine rows_nodup List.nodup_range (fun r _ => cellsAt_nodup _ _) ?_
      intro r _ r' _ c hc d hd he
      have h1 := cellsAt_addr hc
      have h2 := cellsAt_addr hd
      rw [encodeRow_length] at h1 h2
      rcases Nat.lt_trichotomy r r' with h | h | h
      · have := hrow _ _ h; omega
      · exact h
      · have := hrow _ _ h; omega
    · rintro a ha b hb rfl
      rw [← List.map_append] at ha
      obtain ⟨c, hc, rfl⟩ := List.mem_map.1 ha
      obtain ⟨d, hd, he⟩ := List.mem_map.1 hb
      obtain ⟨r, -, hd⟩ := List.mem_flatMap.1 hd
      have h2 := cellsAt_addr hd
      rcases List.mem_append.1 hc with hc | hc
      · have h1 := cellsAt_addr hc
        rw [encodeHeader_length] at h1
        omega
      · obtain ⟨i, hi, hc⟩ := List.mem_flatMap.1 hc
        have h1 := cellsAt_addr hc
        simp only [paletteEntry, List.length_cons, List.length_nil, List.mem_range] at h1 hi
        omega

theorem encode_mem_header {s : State} {k : Nat} (hk : k < 54) :
    (s.db + k, (encodeHeader s.imgW s.imgH)[k]'(by rw [encodeHeader_length]; exact hk)) ∈ encodeWrites s := by
  unfold encodeWrites
  exact List.mem_append_left _ (List.mem_append_left _ (mem_cellsAt _))

theorem encode_mem_palette {s : State} {i j : Nat} (hi : i < 256) (hj : j < 4) :
    (s.db + 54 + 4 * i + j, (paletteEntry i)[j]'(by simpa [paletteEntry] using hj)) ∈ encodeWrites s := by
  unfold encodeWrites
  exact List.mem_append_left _ (List.mem_append_right _ (List.mem_flatMap.2
    ⟨i, List.mem_range.2 hi, mem_cellsAt _⟩))

theorem encode_mem_row {s : State} {r k : Nat} (hr : r < s.imgH) (hk : k < stride s.imgW 1) :
    (s.db + 1078 + r * stride s.imgW 1 + k, (encodeRow s r)[k]'(by rw [encodeRow_length]; exact hk)) ∈
      encodeWrites s := by
  unfold encodeWrites
  exact List.mem_append_right _ (List.mem_flatMap.2 ⟨r, List.mem_range.2 hr, mem_cellsAt _⟩)

/-! ## Everything the command function can answer -/

/-- What `Run` of a legal command can answer: an error with a proper code, or success with writes that stay in
`(DST_BASE, OUT_LEN)`, name no address twice, fit DST_CAP and MEM, and keep off the command's source region. -/
theorem runInstr_cases (i : Instr) (s : State) :
    (∃ code info, runInstr i s = .err code info ∧ code ≠ .none) ∨
    (i = .nop ∧ runInstr i s = .ok [] none) ∨
    (∃ ws o, runInstr i s = .ok ws (some o) ∧ WritesIn ws s.db o.len ∧ o.len ≤ s.dc ∧
      s.db + s.dc ≤ s.cfg.memBytes ∧ apart s.sb (sourceLen i s) s.db o.len) := by
  obtain ⟨hd, he, ht⟩ := checks_code_ne_none s
  cases i with
  | nop => exact .inr (.inl ⟨rfl, rfl⟩)
  | decode =>
    cases h : firstFailure (decodeChecks s) with
    | some c => exact .inl ⟨_, _, runDecode_err h, hd c (firstFailure_some h).1⟩
    | none =>
      have hk := (decodeChecks_none s).1 h
      exact .inr (.inr ⟨_, _, runDecode_ok hk, decode_writesIn s, hk.2.2.2.2.2.2.2.2.2.2.1, hk.2.1,
        hk.2.2.2.2.2.2.2.2.2.2.2⟩)
  | encode =>
    cases h : firstFailure (encodeChecks s) with
    | some c => exact .inl ⟨_, _, runEncode_err h, he c (firstFailure_some h).1⟩
    | none =>
      have hk := (encodeChecks_none s).1 h
      exact .inr (.inr ⟨_, _, runEncode_ok hk, encode_writesIn s, hk.2.2.2.2.1, hk.2.2.2.1, hk.2.2.2.2.2⟩)
  | rotcw =>
    cases h : firstFailure (transformChecks s) with
    | some c => exact .inl ⟨_, _, runRotate_err _ h, ht c (firstFailure_some h).1⟩
    | none =>
      have hk := (transformChecks_none s).1 h
      exact .inr (.inr ⟨_, _, runRotate_ok _ hk, rotcw_writesIn s, hk.2.2.2.2.1, hk.2.2.2.1, hk.2.2.2.2.2⟩)
  | rotccw =>
    cases h : firstFailure (transformChecks s) with
    | some c => exact .inl ⟨_, _, runRotate_err _ h, ht c (firstFailure_some h).1⟩
    | none =>
      have hk := (transformChecks_none s).1 h
      exact .inr (.inr ⟨_, _, runRotate_ok _ hk, rotccw_writesIn s, hk.2.2.2.2.1, hk.2.2.2.1, hk.2.2.2.2.2⟩)
  | blur =>
    cases h : firstFailure (transformChecks s) with
    | some c => exact .inl ⟨_, _, runBlur_err h, ht c (firstFailure_some h).1⟩
    | none =>
      have hk := (transformChecks_none s).1 h
      exact .inr (.inr ⟨_, _, runBlur_ok hk, blur_writesIn s, hk.2.2.2.2.1, hk.2.2.2.1, hk.2.2.2.2.2⟩)

/-- PERFORM of a command is its completion with what `Run` answers (R70). -/
theorem exec_eq (i : Instr) (s : State) : exec i s = .next (s.complete (runInstr i s)) := by cases i <;> rfl

/-! ## The buffer is covered -/

/-- Every index of a buffer is the row-major index of one pixel. -/
theorem rowMajor_split {W H k : Nat} (h : k < W * H) : k % W < W ∧ k / W < H ∧ k / W * W + k % W = k := by
  have hW : 0 < W := Nat.pos_of_ne_zero (by rintro rfl; simp at h)
  exact ⟨Nat.mod_lt _ hW, Nat.div_lt_of_lt_mul h, Nat.div_add_mod' k W⟩

theorem cwIndex_surj {W H k : Nat} (h : k < W * H) : ∃ x < W, ∃ y < H, cwIndex H x y = k := by
  rw [Nat.mul_comm] at h
  obtain ⟨h1, h2, h3⟩ := rowMajor_split h
  exact ⟨k / H, h2, H - 1 - k % H, by omega, by unfold cwIndex; rw [show H - 1 - (H - 1 - k % H) = k % H by omega]; exact h3⟩

theorem ccwIndex_surj {W H k : Nat} (h : k < W * H) : ∃ x < W, ∃ y < H, ccwIndex W H x y = k := by
  rw [Nat.mul_comm] at h
  obtain ⟨h1, h2, h3⟩ := rowMajor_split h
  generalize k / H = q at *
  exact ⟨W - 1 - q, by omega, k % H, h1, by unfold ccwIndex; rw [show W - 1 - (W - 1 - q) = q by omega]; exact h3⟩

/-! ## The results as numbers -/

/-- The range of `s32` (R7). -/
theorem s32_range (v : Word) : s32 v < 2 ^ 31 ∧ -2^31 ≤ s32 v := by
  unfold s32; have := v.isLt; split <;> omega

theorem u32_toNat {n : Nat} (h : n < 2 ^ 32) : (u32 n).toNat = n := by
  rw [u32, BitVec.toNat_ofNat, Nat.mod_eq_of_lt h]

/-- No result of a command is cut by the 32 bits of OUT_* (R72). -/
theorem runInstr_out_lt {i : Instr} {s : State} {ws o} (h : runInstr i s = .ok ws (some o)) :
    o.w < 2 ^ 32 ∧ o.h < 2 ^ 32 ∧ o.len < 2 ^ 32 := by
  have hl : o.len ≤ s.dc := by
    rcases runInstr_cases i s with ⟨c, f, h', -⟩ | ⟨-, h'⟩ | ⟨ws', o', h', -, hl, -⟩
    · rw [h'] at h; cases h
    · rw [h'] at h; cases h
    · rw [h'] at h; cases h; exact hl
  have hdc : s.dc < 2 ^ 32 := s.lat.dstCap.isLt
  have hw : s.imgW < 2 ^ 31 := by have := s32_range s.lat.width; unfold State.imgW State.latW; omega
  have hh : s.imgH < 2 ^ 31 := by have := s32_range s.lat.height; unfold State.imgH State.latH; omega
  have hw' : s.header.wn < 2 ^ 31 := by have := s32_range s.header.wfld; unfold Header.wn Header.w; omega
  have hh' : s.header.hn ≤ 2 ^ 31 := by have := s32_range s.header.hfld; unfold Header.hn Header.hs; omega
  cases i with
  | nop => cases h
  | decode => simp only [runInstr, runDecode] at h; split at h <;> cases h; simp only at *; omega
  | encode => simp only [runInstr, runEncode] at h; split at h <;> cases h; simp only at *; omega
  | rotcw => simp only [runInstr, runRotcw, runRotate] at h; split at h <;> cases h; simp only at *; omega
  | rotccw => simp only [runInstr, runRotccw, runRotate] at h; split at h <;> cases h; simp only at *; omega
  | blur => simp only [runInstr, runBlur] at h; split at h <;> cases h; simp only at *; omega

/-! ## What reading MEM gives after the writes -/

/-- A written byte reads as the value written, a byte outside the region as before. -/
theorem WritesIn.read_apply {ws : List Host.Cell} {db len : Nat} {m : Memory} (hm : m.wf) (h : WritesIn ws db len) :
   (∀ a b, (a, b) ∈ ws → (m.apply ws).read a = b) ∧ (∀ a, (a < db ∨ db + len ≤ a) → (m.apply ws).read a = m.read a) :=
  ⟨fun a b hab => memory_read_apply_written hm h.nodup hab, fun a ha => memory_read_apply_other hm fun c hc => by have := h.inside c hc; omega⟩

theorem luma_toNat (r g b : Byte) : (luma r g b).toNat = (30 * r.toNat + 59 * g.toNat + 11 * b.toNat) / 100 := by
  unfold luma
  rw [BitVec.toNat_ofNat]
  have := r.isLt; have := g.isLt; have := b.isLt
  omega

theorem mac_eq (p : Nat → Nat → Byte) (x y : Nat) : mac p x y = ∑ j ∈ Finset.range 5, ∑ i ∈ Finset.range 5, kernelAt j i * (p (x + i - 2) (y + j - 2)).toNat := by
  simp [mac, Finset.sum_range_succ, List.range_succ, Nat.add_assoc]

theorem kernel_sum : (∑ j ∈ Finset.range 5, ∑ i ∈ Finset.range 5, kernelAt j i) = 273 := by decide

theorem mac_bounds {p : Nat → Nat → Byte} {x y lo hi : Nat} (h : ∀ i < 5, ∀ j < 5, lo ≤ (p (x + i - 2) (y + j - 2)).toNat ∧ (p (x + i - 2) (y + j - 2)).toNat ≤ hi) :
   273 * lo ≤ mac p x y ∧ mac p x y ≤ 273 * hi := by
  rw [mac_eq, ← kernel_sum, Finset.sum_mul, Finset.sum_mul]
  constructor
  · refine Finset.sum_le_sum fun j hj => ?_
    rw [Finset.sum_mul]
    exact Finset.sum_le_sum fun i hi => Nat.mul_le_mul_left _ (h i (Finset.mem_range.1 hi) j (Finset.mem_range.1 hj)).1
  · refine Finset.sum_le_sum fun j hj => ?_
    rw [Finset.sum_mul]
    exact Finset.sum_le_sum fun i hi => Nat.mul_le_mul_left _ (h i (Finset.mem_range.1 hi) j (Finset.mem_range.1 hj)).2

theorem gauss_toNat (p : Nat → Nat → Byte) (x y : Nat) : (gauss p x y).toNat = mac p x y / 273 := by
  have h : mac p x y ≤ 273 * 255 := (mac_bounds (lo := 0) (hi := 255) fun i _ j _ => ⟨by omega, by have := (p (x + i - 2) (y + j - 2)).isLt; omega⟩).2
  unfold gauss ksum
  rw [BitVec.toNat_ofNat]
  omega

/-- What BLUR leaves at a pixel. -/
theorem blur_read {s : State} (hm : s.mem.wf) {x y : Nat} (hx : x < s.imgW) (hy : y < s.imgH) :
   (s.mem.apply (blurWrites s)).read (s.db + y * s.imgW + x) = blurredPix s x y := by
  obtain ⟨k1, k2⟩ := (blur_writesIn s).read_apply hm
  unfold blurredPix
  cases hb : isBorder s.imgW s.imgH x y with
  | true => exact k1 _ _ (List.mem_append_right _ (mem_blurBorder.2 ⟨x, hx, y, hy, hb, rfl⟩))
  | false => exact k1 _ _ (List.mem_append_left _ (mem_blurInterior.2 ⟨x, y, hb, rfl⟩))

/-- MEM holds the little-endian fields `fs` from address `a` up, each cut to its size. -/
def FieldsAt (m : Memory) : Nat → List (Nat × Nat) → Prop
  | _, [] => True
  | a, f :: fs => m.readLE a f.1 = f.2 % 256 ^ f.1 ∧ FieldsAt m (a + f.1) fs

theorem fieldsAt_of_bytes {m : Memory} {a : Nat} {fs : List (Nat × Nat)}
    (h : ∀ k (hk : k < (fieldBytes fs).length), m.read (a + k) = (fieldBytes fs)[k]) : FieldsAt m a fs := by
  induction fs generalizing a with
  | nil => trivial
  | cons f fs ih =>
    have hlen : (fieldBytes (f :: fs)).length = f.1 + (fieldBytes fs).length := by
      simp [fieldBytes, leBytes_length]
    refine ⟨readLE_of_bytes fun k hk => ?_, ih fun k hk => ?_⟩
    · rw [h k (by omega), ← leBytes_get hk]
      simp only [fieldBytes, List.flatMap_cons]
      rw [List.getElem_append_left]
    · rw [Nat.add_assoc, h (f.1 + k) (by omega)]
      simp only [fieldBytes, List.flatMap_cons]
      rw [List.getElem_append_right (by rw [leBytes_length]; omega)]
      simp only [leBytes_length, Nat.add_sub_cancel_left]

/-- The header fields of a file that ENCODE wrote. -/
theorem encode_fieldsAt {s : State} (hm : s.mem.wf) :
    FieldsAt (s.mem.apply (encodeWrites s)) s.db (headerFields s.imgW s.imgH) := by
  refine fieldsAt_of_bytes fun k hk => ?_
  have hl := encodeHeader_length s.imgW s.imgH
  exact ((encode_writesIn s).read_apply hm).1 _ _ (encode_mem_header (by unfold encodeHeader at hl; omega))

/-! ## Completion -/

/-- A completion keeps everything a command may not touch (R129). -/
theorem complete_keepsRest (s : State) (r : Result) : KeepsRest s (s.complete r) := by
  cases r with
  | ok ws o => cases o <;> exact ⟨rfl, rfl, rfl, rfl, rfl, rfl, rfl, rfl, rfl, rfl, rfl, rfl, rfl⟩
  | err c i => exact ⟨rfl, rfl, rfl, rfl, rfl, rfl, rfl, rfl, rfl, rfl, rfl, rfl, rfl⟩

/-- A completion with an error, in the terms of Safety.lean. -/
theorem completeErr_completedErr (s : State) (c i) : CompletedErr s (s.completeErr c i) c i := by
  refine ⟨complete_keepsRest s (.err c i), rfl, rfl, rfl, rfl, rfl, rfl, rfl, rfl, rfl, ?_⟩
  simp [Status.failed]

theorem errorsWith_of_run {i : Instr} {s : State} {c f} (h : runInstr i s = .err c f) : ErrorsWith i s c f :=
  ⟨s.completeErr c f, by rw [exec_eq, h]; rfl, completeErr_completedErr s c f⟩

/-- A command that succeeds completes with its results. -/
theorem exec_of_run_ok {i : Instr} {s : State} {ws o} (h : runInstr i s = .ok ws (some o)) :
    ∃ t, exec i s = .next t ∧ CompletedOk s t o.w o.h o.len ∧ t.mem = s.mem.apply ws := by
  obtain ⟨h1, h2, h3⟩ := runInstr_out_lt h
  refine ⟨s.completeOk ws (some o), by rw [exec_eq, h]; rfl, ⟨complete_keepsRest s (.ok ws (some o)), u32_toNat h1, u32_toNat h2, u32_toNat h3, rfl, rfl, rfl, rfl, rfl, rfl⟩, rfl⟩

/-- Everything PERFORM of a legal command can do. -/
theorem exec_cases (i : Instr) (s t : State) (h : exec i s = .next t) :
    (∃ code info, runInstr i s = .err code info ∧ t = s.completeErr code info ∧ code ≠ .none) ∨
    (i = .nop ∧ t = s.completeOk [] none) ∨
    (∃ ws o, runInstr i s = .ok ws (some o) ∧ t = s.completeOk ws (some o) ∧ WritesIn ws s.db o.len ∧
      (u32 o.len).toNat = o.len ∧ s.db + s.dc ≤ s.cfg.memBytes ∧ o.len ≤ s.dc ∧ apart s.sb (sourceLen i s) s.db o.len) := by
  rw [exec_eq] at h
  cases h
  rcases runInstr_cases i s with ⟨c, f, h, hc⟩ | ⟨h1, h⟩ | ⟨ws, o, h, h1, h2, h3, h4⟩
  · exact .inl ⟨c, f, h, by rw [h]; rfl, hc⟩
  · exact .inr (.inl ⟨h1, by rw [h]; rfl⟩)
  · exact .inr (.inr ⟨ws, o, h, by rw [h]; rfl, h1, u32_toNat (runInstr_out_lt h).2.2, h3, h2, h4⟩)

end Sys2Proof.Machine
end

