-- ==== Sys2Proof/Laws/Chain.lean ====
section
/-! SUPPORT. What a rotation leaves and what a chained command starts from (spec/43_rotate.md R98,
spec/70_reset_and_hazards.md R129). -/

namespace Sys2Proof.Machine

theorem imgW_lt (s : State) : s.imgW < 2 ^ 31 := by have := s32_range s.lat.width; unfold State.imgW State.latW; omega

theorem imgH_lt (s : State) : s.imgH < 2 ^ 31 := by have := s32_range s.lat.height; unfold State.imgH State.latH; omega

/-- The MEM and the dimensions a rotation leaves: ROTCW for `cw = true`, else ROTCCW. -/
theorem rotate_result {cw : Bool} {s t : State} (hm : s.mem.wf) (hok : TransformOk s) (h : exec (if cw then .rotcw else .rotccw) s = .next t) :
   t.mem.wf ∧ t.regs.outWidth.toNat = s.imgH ∧ t.regs.outHeight.toNat = s.imgW ∧ 
   ∀ x < s.imgW, ∀ y < s.imgH, t.mem.read (s.db + (if cw then cwIndex s.imgH x y else ccwIndex s.imgW s.imgH x y)) = s.mem.read (s.sb + y * s.imgW + x) := by
  cases cw with
  | true =>
    obtain ⟨t', h1, h2, h3⟩ := exec_of_run_ok (i := .rotcw) (runRotate_ok _ hok)
    rw [if_pos rfl, h1] at h; injection h with h; subst h
    refine ⟨h3 ▸ memory_apply_wf hm _, h2.2.1, h2.2.2.1, fun x hx y hy => ?_⟩
    rw [h3, if_pos rfl, ((rotcw_writesIn s).read_apply hm).1 _ _ (rotate_mem_writes _ hx hy)]; rfl
  | false =>
    obtain ⟨t', h1, h2, h3⟩ := exec_of_run_ok (i := .rotccw) (runRotate_ok _ hok)
    rw [if_neg (by simp), h1] at h; injection h with h; subst h
    refine ⟨h3 ▸ memory_apply_wf hm _, h2.2.1, h2.2.2.1, fun x hx y hy => ?_⟩
    rw [h3, if_neg (by simp), ((rotccw_writesIn s).read_apply hm).1 _ _ (rotate_mem_writes _ hx hy)]; rfl

/-- The operands of a chained command. -/
theorem chainedOn_operands {s t u : State} {w h : Nat} (hc : ChainedOn s t u) (hw : t.regs.outWidth.toNat = w) (hh : t.regs.outHeight.toNat = h) (b : w < 2^31) (b' : h < 2^31) :
   u.imgW = w ∧ u.imgH = h ∧ u.sb = s.db ∧ u.mem = t.mem := by
  obtain ⟨h1, h2, h3, h4⟩ := hc
  unfold State.imgW State.imgH State.latW State.latH State.sb State.db
  rw [h3, h4, h2]
  refine ⟨?_, ?_, rfl, h1⟩
  · unfold s32; rw [hw, if_pos b]; rfl
  · unfold s32; rw [hh, if_pos b']; rfl

/-- A word whose value is a checked dimension is the latched dimension. -/
theorem dimension_word {s : State} (hok : TransformOk s) {w : Word} :  (w.toNat = s.imgW → w = s.lat.width) ∧ (w.toNat = s.imgH → w = s.lat.height) := by
  obtain ⟨h1, h2, -⟩ := hok
  constructor
  · intro h; apply BitVec.eq_of_toNat_eq; rw [h]; unfold State.imgW State.latW s32 at *
    split at h1 <;> omega
  · intro h; apply BitVec.eq_of_toNat_eq; rw [h]; unfold State.imgH State.latH s32 at *
    split at h2 <;> omega

end Sys2Proof.Machine
end

