-- ==== Sys2Proof/Laws/Congr.lean ====
section
/-! SUPPORT. What the parts of the command functions depend on: equal latches give equal operands, equal source bytes
give equal samples (spec/42_lanes.md R92). -/

namespace Sys2Proof.Machine

theorem operands_congr {s s' : State} (h : s'.lat = s.lat) : s'.sb = s.sb ∧ s'.sl = s.sl ∧ s'.db = s.db ∧ s'.dc = s.dc ∧ s'.imgW = s.imgW ∧ s'.imgH = s.imgH
   ∧ s'.latW = s.latW ∧ s'.latH = s.latH := by
  simp [State.sb, State.sl, State.db, State.dc, State.imgW, State.imgH, State.latW, State.latH, h]

theorem transformChecks_congr {s s' : State} (h : s'.lat = s.lat) (hm : s'.cfg.memBytes = s.cfg.memBytes) : transformChecks s' = transformChecks s := by
  obtain ⟨h1, h2, h3, h4, h5, h6, h7, h8⟩ := operands_congr h
  simp only [transformChecks, validRegion, hm, h1, h3, h4, h5, h6, h7, h8]

theorem flatMap_congr {α β} {l : List α} {f g : α → List β} (h : ∀ x ∈ l, f x = g x) : l.flatMap f = l.flatMap g := by
  induction l with
  | nil => rfl
  | cons a l ih => rw [List.flatMap_cons, List.flatMap_cons, h a (by simp), ih fun x hx => h x (by simp [hx])]

theorem srcPix_congr {i} {s s' : State} (hi : i ≠ .nop ∧ i ≠ .decode) (h : SameInputs i s s') {x y : Nat} (hx : x < s.imgW) (hy : y < s.imgH) : s'.srcPix x y = s.srcPix x y := by
  obtain ⟨h0, h1, h2⟩ := h
  obtain ⟨g1, g2, g3, g4, g5, g6, g7, g8⟩ := operands_congr h0
  unfold State.srcPix Memory.pix
  rw [g1, g5]
  have := rowMajor_lt hx hy
  have hs : sourceLen i s = s.imgW * s.imgH := by cases i <;> simp_all [sourceLen]
  exact h2 _ (by omega) (by omega)

theorem runRotate_congr {i} {s s' : State} (hi : i ≠ .nop ∧ i ≠ .decode) (h : SameInputs i s s') (index) : runRotate s' index = runRotate s index := by
  obtain ⟨g1, g2, g3, g4, g5, g6, g7, g8⟩ := operands_congr h.1
  unfold runRotate
  rw [transformChecks_congr h.1 h.2.1]
  split
  · rfl
  · rw [parallelRows_zero, parallelRows_zero, g5, g6]
    congr 1
    refine flatMap_congr fun y hy => ?_
    unfold rotateRow
    rw [g5, g3]
    refine List.map_congr_left fun x hx => ?_
    rw [srcPix_congr hi h (List.mem_range.1 hx) (List.mem_range.1 hy)]

theorem gauss_congr {p q : Nat → Nat → Byte} {x y : Nat} (h : ∀ i < 5, ∀ j < 5, p (x + i - 2) (y + j - 2) = q (x + i - 2) (y + j - 2)) : gauss p x y = gauss q x y := by
  unfold gauss mac
  congr 2
  congr 1
  refine List.map_congr_left fun j hj => ?_
  congr 1
  refine List.map_congr_left fun i hi => ?_
  rw [h i (List.mem_range.1 hi) j (List.mem_range.1 hj)]

theorem header_congr {s s' : State} (hl : s'.lat = s.lat) (h : ∀ k, k ∈ [0, 1, 10, 11, 12, 13, 18, 19, 20, 21, 22, 23, 24, 25, 28, 29, 30, 31, 32, 33] →
      s'.mem.read (s.sb + k) = s.mem.read (s.sb + k)) : s'.header = s.header := by
  have e := (operands_congr hl).1
  unfold State.header parseHeader
  rw [e]
  have key : ∀ o n, (∀ k < n, o + k ∈ [0, 1, 10, 11, 12, 13, 18, 19, 20, 21, 22, 23, 24, 25, 28, 29, 30, 31, 32, 33]) → s'.mem.readLE (s.sb + o) n = s.mem.readLE (s.sb + o) n := by
    intro o n hk
    refine readLE_congr fun k hkn => ?_
    rw [Nat.add_assoc]
    exact h _ (hk k hkn)
  rw [key 0 2 (by decide), key 10 4 (by decide), key 18 4 (by decide), key 22 4 (by decide), key 28 2 (by decide), key 30 4 (by decide)]

theorem decode_congr {s s' : State} (hl : s'.lat = s.lat) (hm : s'.cfg.memBytes = s.cfg.memBytes) 
   (hh : 54 ≤ s.sl → s'.header = s.header) (hsig : 2 ≤ s.sl → s'.header.sig = s.header.sig)
   (hp : s.header.need ≤ s.sl → ∀ x < s.header.wn, ∀ r < s.header.hn, ∀ k < 3,
      s'.mem.read (s.sb + s.header.off + r * stride s.header.wn 3 + 3 * x + k) =
        s.mem.read (s.sb + s.header.off + r * stride s.header.wn 3 + 3 * x + k)) :
   runInstr .decode s' = runInstr .decode s := by
  obtain ⟨g1, g2, g3, g4, g5, g6, g7, g8⟩ := operands_congr hl
  show runDecode s' = runDecode s
  have hff : firstFailure (decodeChecks s') = firstFailure (decodeChecks s) := by
    by_cases h54 : 54 ≤ s.sl
    · simp only [decodeChecks, validRegion, hm, g1, g2, g3, g4, hh h54]
    · by_cases h2 : 2 ≤ s.sl
      · have := hsig h2
        have e54 : decide (s.sl < 54) = true := by simp; omega
        simp only [decodeChecks, firstFailure, validRegion, hm, g1, g2, g3, g4, this, e54, if_true]
      · have e2 : decide (s.sl < 2) = true := by simp; omega
        simp only [decodeChecks, firstFailure, validRegion, hm, g1, g2, g3, g4, e2, Bool.true_or, if_true]
  unfold runDecode
  rw [hff]
  cases hf : firstFailure (decodeChecks s) with
  | some c => rfl
  | none =>
    have hok := (decodeChecks_none s).1 hf
    have hhd := hh hok.2.2.1
    have hneed : s.header.need ≤ s.sl := hok.2.2.2.2.2.2.2.2.2.1
    simp only
    rw [parallelRows_zero, parallelRows_zero, hhd]
    congr 1
    refine flatMap_congr fun y hy => ?_
    unfold decodeRow
    rw [hhd, g3]
    refine List.map_congr_left fun x hx => ?_
    simp only [List.mem_range] at hx hy
    have hr : storedRow s.header.hs s.lat.topdown y < s.header.hn := by
      unfold storedRow Header.hn at *; split <;> omega
    have hk := hp hneed x hx _ hr
    congr 1
    unfold decodedPix
    simp only
    rw [hhd, g1, hl]
    have e : ∀ b : Nat, b + 0 = b := fun _ => rfl
    rw [hk 2 (by omega), hk 1 (by omega), ← e (s.sb + s.header.off + storedRow s.header.hs s.lat.topdown y * stride s.header.wn 3 + 3 * x), hk 0 (by omega)]

end Sys2Proof.Machine
end

