-- ==== Sys2Proof/Laws/Decode.lean ====
section
/-! SUPPORT. The decoder as a case split over the six words. -/

namespace Sys2Proof

/-- The decoder answers by comparing the whole word with the six of R56. -/
theorem decode_eq (w : Word) : decode w =
   if w = 0#32 then .instr .nop else if w = 1#32 then .instr .decode else if w = 2#32 then .instr .encode else
   if w = 3#32 then .instr .rotcw else if w = 4#32 then .instr .rotccw else if w = 5#32 then .instr .blur else
   .illegal (illegalReason w) := by
  have h : w &&& 0xFFFFFFFF#32 = w := by
    have : (0xFFFFFFFF#32) = BitVec.allOnes 32 := by decide
    rw [this, BitVec.and_allOnes]
  simp only [decode, opcodeTable, List.find?, h]
  by_cases h0 : w = 0#32
  · subst h0; rfl
  by_cases h1 : w = 1#32
  · subst h1; rfl
  by_cases h2 : w = 2#32
  · subst h2; rfl
  by_cases h3 : w = 3#32
  · subst h3; rfl
  by_cases h4 : w = 4#32
  · subst h4; rfl
  by_cases h5 : w = 5#32
  · subst h5; rfl
  simp only [beq_eq_false_iff_ne.2 h0, beq_eq_false_iff_ne.2 h1, beq_eq_false_iff_ne.2 h2, beq_eq_false_iff_ne.2 h3,
    beq_eq_false_iff_ne.2 h4, beq_eq_false_iff_ne.2 h5, if_neg h0, if_neg h1, if_neg h2, if_neg h3, if_neg h4, if_neg h5]

end Sys2Proof
end

