-- ==== Sys2Proof/Laws/PerInstr.lean ====
section
/-! SUPPORT. Statements about every instruction as syntax, one lemma per constructor. -/

namespace Sys2Proof.Laws.RoundTrip

/-- The instruction is well-formed, its word is legal (spec/30_encoding.md R55, R58), and the word decodes back to it
(R56). -/
def Statement (i : Instr) : Prop :=
  i.wellFormed = true ∧ legalWord (encode i) = true ∧ Sys2Proof.decode (encode i) = .instr i

theorem nop : Statement .nop := by unfold Statement; decide

theorem decode : Statement .decode := by unfold Statement; decide

theorem encode : Statement .encode := by unfold Statement; decide

theorem rotcw : Statement .rotcw := by unfold Statement; decide

theorem rotccw : Statement .rotccw := by unfold Statement; decide

theorem blur : Statement .blur := by unfold Statement; decide

end Sys2Proof.Laws.RoundTrip
end

