-- ==== Sys2Proof/Laws/Steps.lean ====
section
/-! SUPPORT. What one step of each agent can do: one inversion lemma per agent. -/

namespace Sys2Proof.Machine

/-! ## Register writes -/

/-- Everything a host register write can do: an acceptance, or a change of the registers that leaves the results, ERRINFO
and every bit of STATUS but OVR; OVR is cleared only by a write of bit 4 to STATUS (R17, R23, R68, R69). -/
theorem writeReg_cases (s : State) (r : Reg) (v : Word) :
    (r = .cmd ∧ s.regs.status.busy = false ∧ s.regs.status.fatal = false ∧ s.writeReg r v = s.accept v) ∨
    (∃ R : Regs, s.writeReg r v = { s with regs := R } ∧ R.errinfo = s.regs.errinfo ∧
      R.outWidth = s.regs.outWidth ∧ R.outHeight = s.regs.outHeight ∧ R.outLen = s.regs.outLen ∧
      R.status = { s.regs.status with ovr := R.status.ovr } ∧
      (s.regs.status.ovr = true → R.status.ovr = false → r = .status ∧ v.getLsbD 4 = true)) := by
  cases r with
  | cmd =>
    by_cases h : s.regs.status.accepts = true
    · left
      have h' := h
      simp only [Status.accepts, Bool.and_eq_true, Bool.not_eq_true'] at h'
      exact ⟨rfl, h'.1, h'.2, by simp only [State.writeReg, State.issue, h, if_true]⟩
    · right
      exact ⟨{ s.regs with status := s.regs.status.overrun }, by simp only [State.writeReg, State.issue]; rw [if_neg h],
        rfl, rfl, rfl, rfl, rfl, by simp [Status.overrun]⟩
  | status =>
    right
    refine ⟨{ s.regs with status := s.regs.status.written v }, rfl, rfl, rfl, rfl, rfl, rfl, ?_⟩
    intro h1 h2
    refine ⟨rfl, ?_⟩
    simpa [Status.written, h1] using h2
  | ctrl | srcBase | srcLen | dstBase | dstCap | width | height =>
    right; exact ⟨_, rfl, rfl, rfl, rfl, rfl, rfl, by simp_all⟩
  | id | lanes | errinfo | outWidth | outHeight | outLen =>
    right; exact ⟨s.regs, rfl, rfl, rfl, rfl, rfl, rfl, by simp_all⟩

/-- The registers by offset (R16). -/
theorem reg_at_offset (r : Reg) : Reg.at? r.offset = some r := by cases r <;> rfl

theorem reg_at_some {off : Nat} {r : Reg} (h : Reg.at? off = some r) : r.offset = off := by
  have := List.find?_some h
  simpa using this

theorem reg_at_reserved {off : Nat} (h : 0x3C ≤ off) : Reg.at? off = none := by
  simp only [Reg.at?, List.find?_eq_none]
  intro r hr
  have : r.offset ≤ 0x38 := by cases r <;> decide
  simp only [beq_iff_eq]; omega

/-- `writeReg_cases` at an offset of the window. -/
theorem writeOffset_cases (s : State) (off : Nat) (v : Word) :
    (off = 0x0C ∧ s.regs.status.busy = false ∧ s.regs.status.fatal = false ∧ s.writeOffset off v = s.accept v) ∨
    (∃ R : Regs, s.writeOffset off v = { s with regs := R } ∧ R.errinfo = s.regs.errinfo ∧
      R.outWidth = s.regs.outWidth ∧ R.outHeight = s.regs.outHeight ∧ R.outLen = s.regs.outLen ∧
      R.status = { s.regs.status with ovr := R.status.ovr } ∧
      (s.regs.status.ovr = true → R.status.ovr = false → off = 0x10 ∧ v.getLsbD 4 = true)) := by
  unfold State.writeOffset
  cases h : Reg.at? off with
  | none => right; exact ⟨s.regs, rfl, rfl, rfl, rfl, rfl, rfl, by simp_all⟩
  | some r =>
    have ho := reg_at_some h
    rcases writeReg_cases s r v with ⟨rfl, h1⟩ | ⟨R, h1, h2, h3, h4, h5, h6, h7⟩
    · exact .inl ⟨ho.symm, h1⟩
    · exact .inr ⟨R, h1, h2, h3, h4, h5, h6, fun a b => by obtain ⟨rfl, hv⟩ := h7 a b; exact ⟨ho.symm, hv⟩⟩

/-! ## Access forms -/

/-- A register access goes ahead exactly at an aligned 32-bit offset of the window (R16, R17). -/
theorem windowRefusal_none {c : Config} {addr width : Nat} :
    windowRefusal c addr width = none ↔
      c.regBase ≤ addr ∧ addr < c.regBase + 256 ∧ width = 4 ∧ (addr - c.regBase) % 4 = 0 := by
  unfold windowRefusal
  split
  · simp only [reduceCtorEq, false_iff]; omega
  · split
    · simp only [reduceCtorEq, false_iff]; omega
    · simp only [true_iff]; omega

theorem windowRefusal_offset {c : Config} {off : Nat} (h : off < 256) (h4 : off % 4 = 0) :
    windowRefusal c (c.regBase + off) 4 = none := by
  rw [windowRefusal_none]; omega

theorem windowRefusal_bad {c : Config} {off width : Nat} (h : off < 256) (hb : width ≠ 4 ∨ off % 4 ≠ 0) :
    windowRefusal c (c.regBase + off) width = some (.badRegisterAccess (c.regBase + off) width) := by
  unfold windowRefusal
  rw [if_neg (by omega), if_pos (by omega)]

theorem atOffset_next {s t : State} {addr width : Nat} {act : Nat → Answer} (h : s.atOffset addr width act = .next t) :
    s.cfg.regBase ≤ addr ∧ addr < s.cfg.regBase + 256 ∧ width = 4 ∧ act (addr - s.cfg.regBase) = .next t := by
  unfold State.atOffset at h
  cases hw : windowRefusal s.cfg addr width with
  | some r => rw [hw] at h; cases h
  | none =>
    rw [hw] at h
    obtain ⟨h1, h2, h3, -⟩ := windowRefusal_none.1 hw
    exact ⟨h1, h2, h3, h⟩

theorem atMemByte_next {s t : State} {a : Nat} {act : Answer} (h : s.atMemByte a act = .next t) :
    a < s.cfg.memBytes ∧ s.races a = false ∧ act = .next t := by
  unfold State.atMemByte at h
  split at h
  · cases h
  · split at h
    · cases h
    · exact ⟨by omega, by simpa using ‹¬ s.races a = true›, h⟩

/-! ## The host's step -/

/-- Everything a host step can do when it has a next state: move in its own program only (waiting, RD, POLL, MR); a
register write at an offset; or one byte write that names an existing byte and is no race. -/
theorem hostStep_cases {s t : State} (h : hostStep s = .next t) :
    (∃ g, t = { s with host := g }) ∨
    (∃ off v g arg rest, t = ({ s with host := g } : State).writeOffset off v ∧
      s.host.prog = .write (s.cfg.regBase + off) 4 arg :: rest ∧
      s.host.word arg = some v) ∨
    (∃ a b g, a < s.cfg.memBytes ∧ s.races a = false ∧ t = { s with mem := s.mem.write a b, host := g }) := by
  unfold hostStep at h
  cases hp : s.host.prog with
  | nil => rw [hp] at h; cases h; exact .inl ⟨s.host, rfl⟩
  | cons op rest =>
    rw [hp] at h
    cases op with
    | write addr width arg =>
      obtain ⟨h1, h2, rfl, hw⟩ := atOffset_next h
      simp only [withProg_cfg] at h1 h2
      have haddr : s.cfg.regBase + (addr - s.cfg.regBase) = addr := by omega
      have hg : (s.withProg rest).host.word arg = s.host.word arg := rfl
      right; left
      cases hv : s.host.word arg with
      | none => simp only [hg, hv] at hw; cases hw
      | some v =>
        simp only [hg, hv] at hw
        cases hw
        exact ⟨addr - s.cfg.regBase, v, _, arg, rest, rfl, by rw [haddr], hv⟩
    | read addr width x =>
      obtain ⟨-, -, -, hr⟩ := atOffset_next h
      cases hr
      exact .inl ⟨_, rfl⟩
    | poll addr mask v =>
      obtain ⟨-, -, -, hr⟩ := atOffset_next h
      split at hr <;> cases hr
      · exact .inl ⟨_, rfl⟩
      · exact .inl ⟨s.host, rfl⟩
    | memWrite addr bs =>
      cases bs with
      | nil => cases h; exact .inl ⟨_, rfl⟩
      | cons b bs =>
        obtain ⟨h1, h2, hw⟩ := atMemByte_next h
        cases hw
        exact .inr (.inr ⟨addr, b, _, h1, h2, rfl⟩)
    | memRead addr n x got =>
      cases n with
      | zero => cases h; exact .inl ⟨_, rfl⟩
      | succ k =>
        obtain ⟨-, -, hr⟩ := atMemByte_next h
        split at hr <;> cases hr <;> exact .inl ⟨_, rfl⟩

/-! ## PERFORM and the step -/

/-- PERFORM is the completion with what `Run` answers (R70, R71). -/
theorem perform_eq (s : State) : perform s = .next (s.complete (runCommand s)) := by
  unfold perform runCommand
  cases decode s.lat.cmd with
  | instr i => exact exec_eq i s
  | illegal _ => rfl

/-- Everything `Run` can answer on the latched word: `runInstr_cases`, or ILLEGAL_COMMAND. -/
theorem runCommand_cases (s : State) :
    (∃ code info, runCommand s = .err code info ∧ code ≠ .none) ∨
    (runCommand s = .ok [] none) ∨
    (∃ ws o, runCommand s = .ok ws (some o) ∧ WritesIn ws s.db o.len ∧ o.len ≤ s.dc ∧ s.db + s.dc ≤ s.cfg.memBytes ∧
      apart s.sb s.commandSourceLen s.db o.len) := by
  unfold runCommand State.commandSourceLen
  cases decode s.lat.cmd with
  | illegal _ => exact .inl ⟨_, _, rfl, by decide⟩
  | instr i =>
    rcases runInstr_cases i s with h | ⟨rfl, h⟩ | h
    · exact .inl h
    · exact .inr (.inl h)
    · exact .inr (.inr h)

/-- The written region of any answer lies in MEM. -/
theorem writtenLen_bound (s : State) (hpos : 0 < (runCommand s).writtenLen) :
    s.db + (runCommand s).writtenLen ≤ s.cfg.memBytes := by
  rcases runCommand_cases s with ⟨c, i, h, -⟩ | h | ⟨ws, o, h, -, h1, h2, -⟩
  · simp [h, Result.writtenLen] at hpos
  · simp [h, Result.writtenLen] at hpos
  · rw [h]; simp only [Result.writtenLen]; omega

/-- One step is the host's step, a PERFORM of a running engine, an idle engine turn, or the reset input. -/
theorem step_cases {s t : State} (h : step s = .next t) :
    (s.turn = .host ∧ hostStep s.takeTurn = .next t) ∨
    (s.turn = .engine ∧ s.regs.status.busy = true ∧ t = s.takeTurn.complete (runCommand s)) ∨
    (s.turn = .engine ∧ s.regs.status.busy = false ∧ t = s.takeTurn) ∨
    (s.turn = .reset ∧ t = s.takeTurn.resetInput) := by
  unfold step agentStep at h
  cases ht : s.turn with
  | host => rw [ht] at h; exact .inl ⟨rfl, h⟩
  | reset => rw [ht] at h; cases h; exact .inr (.inr (.inr ⟨rfl, rfl⟩))
  | engine =>
    rw [ht] at h
    cases hb : s.regs.status.busy with
    | true =>
      have hb' : s.takeTurn.regs.status.busy = true := hb
      simp only [engineStep, if_pos hb', perform_eq, takeTurn_runCommand] at h
      cases h
      exact .inr (.inl ⟨rfl, rfl, rfl⟩)
    | false =>
      have hb' : ¬ s.takeTurn.regs.status.busy = true := by simp [hb]
      simp only [engineStep, if_neg hb'] at h
      cases h
      exact .inr (.inr (.inl ⟨rfl, rfl, rfl⟩))

/-- The host interface's run, one step at a time. -/
theorem run_succ (M : Host.Core) (k : Nat) (s : M.State) :
    M.run (k + 1) s = (match M.step s with | .next s' => M.run k s' | .fault r => .fault r | .refused r => .refused r) :=
  rfl

/-- A run of `k + 1` steps that has a next state is a step and then a run of `k` steps. -/
theorem run_succ_next {M : Host.Core} {k : Nat} {s t : M.State} (h : M.run (k + 1) s = .next t) :
    ∃ s', M.step s = .next s' ∧ M.run k s' = .next t := by
  rw [run_succ] at h
  cases hs : M.step s with
  | next s' => rw [hs] at h; exact ⟨s', rfl, h⟩
  | fault r => rw [hs] at h; cases h
  | refused r => rw [hs] at h; cases h

/-- A run of the model goes on from a step that has a next state. -/
theorem core_run_succ {k : Nat} {s s' : State} (h : step s = .next s') : core.run (k + 1) s = core.run k s' := by
  have e := run_succ core k s
  have h' : core.step s = .next s' := h
  rw [h'] at e
  exact e

/-! ## The step of each kind -/

theorem step_engine_busy {s : State} (h1 : s.turn = .engine) (h2 : s.regs.status.busy = true) :
    step s = .next (s.takeTurn.complete (runCommand s)) := by
  have hb : s.takeTurn.regs.status.busy = true := h2
  simp only [step, h1, agentStep, engineStep, if_pos hb, perform_eq, takeTurn_runCommand]

theorem complete_lat (s : State) (r) : (s.complete r).lat = s.lat := (complete_keepsRest s r).2.1

theorem complete_busy (s : State) (r) : (s.complete r).regs.status.busy = false ∧ (s.complete r).regs.status.done = true := by
  cases r <;> exact ⟨rfl, rfl⟩

/-- While a command runs a host step changes no latch, no result and no bit of STATUS but OVR. -/
theorem hostStep_busy {s t : State} (hb : s.regs.status.busy = true) (h : hostStep s = .next t) :
    t.lat = s.lat ∧ t.sched = s.sched ∧ t.cfg = s.cfg ∧ t.regs.status = { s.regs.status with ovr := t.regs.status.ovr } ∧
    t.regs.errinfo = s.regs.errinfo ∧ t.regs.outWidth = s.regs.outWidth ∧ t.regs.outHeight = s.regs.outHeight ∧
    t.regs.outLen = s.regs.outLen := by
  rcases hostStep_cases h with ⟨g, rfl⟩ | ⟨off, v, g, arg, rest, rfl, -, -⟩ | ⟨a, b, g, -, -, rfl⟩
  · exact ⟨rfl, rfl, rfl, rfl, rfl, rfl, rfl, rfl⟩
  · rcases writeOffset_cases { s with host := g } off v with ⟨-, h1, -⟩ | ⟨R, h1, h2, h3, h4, h5, h6, -⟩
    · exact absurd hb (by simp only at h1; simp [h1])
    · rw [h1]; exact ⟨rfl, rfl, rfl, h6, h2, h3, h4, h5⟩
  · exact ⟨rfl, rfl, rfl, rfl, rfl, rfl, rfl, rfl⟩

/-- A register write in the window runs at its offset. -/
theorem step_host_write {s : State} {off : Nat} {v : Word} {arg : HostArg} {rest} (h1 : s.turn = .host)
    (hp : s.host.prog = .write (s.cfg.regBase + off) 4 arg :: rest) (ho : off < 256) (h4 : off % 4 = 0)
    (hv : s.host.word arg = some v) :
    step s = .next ((s.takeTurn.withProg rest).writeOffset off v) := by
  have hp' : s.takeTurn.host.prog = .write (s.cfg.regBase + off) 4 arg :: rest := hp
  have hr : windowRefusal (s.takeTurn.withProg rest).cfg (s.cfg.regBase + off) 4 = none :=
    windowRefusal_offset ho h4
  have hv' : (s.takeTurn.withProg rest).host.word arg = some v := hv
  simp only [step, h1, agentStep, hostStep, hp', State.hostWrite, State.atOffset, hr, hv']
  congr 2
  simp

/-- A register read in the window binds the value read. -/
theorem step_host_read {s : State} {off x : Nat} {rest} (h1 : s.turn = .host)
    (hp : s.host.prog = .read (s.cfg.regBase + off) 4 x :: rest) (ho : off < 256) (h4 : off % 4 = 0) :
    step s = .next ((s.takeTurn.withProg rest).bindVar x (.word (s.readOffset off))) := by
  have hp' : s.takeTurn.host.prog = _ := hp
  have hr : windowRefusal (s.takeTurn.withProg rest).cfg (s.cfg.regBase + off) 4 = none := windowRefusal_offset ho h4
  have e : s.cfg.regBase + off - (s.takeTurn.withProg rest).cfg.regBase = off := by simp
  simp only [step, h1, agentStep, hostStep, hp', State.hostRead, State.atOffset, hr, e]
  rfl

/-- States that agree on every register but `q` read the same at every offset but its own. -/
theorem readOffset_congr {s t : State} {q : Reg} (hr : ∀ r, r ≠ q → t.readReg r = s.readReg r)
    {off : Nat} (h : off ≠ q.offset) : t.readOffset off = s.readOffset off := by
  unfold State.readOffset
  cases ha : Reg.at? off with
  | none => rfl
  | some r => exact hr r (by rintro rfl; exact h (reg_at_some ha).symm)

theorem lookup_bind (h : HostAgent) (x : Nat) (v : HostVal) (y : Nat) :
    (h.bind x v).lookup y = if y = x then some v else h.lookup y := by
  simp only [HostAgent.bind, HostAgent.lookup, List.lookup]
  by_cases hy : y = x
  · subst hy; simp
  · have : (y == x) = false := by simp [hy]
    simp only [this, if_neg hy]
    induction h.vars with
    | nil => rfl
    | cons p ps ih =>
      obtain ⟨k, w⟩ := p
      by_cases hk : k = x
      · subst hk
        have : (y == k) = false := by simp [hy]
        simp only [bne_self_eq_false, Bool.false_eq_true, not_false_eq_true, List.filter_cons_of_neg, List.lookup, this]
        exact ih
      · have hk' : ((k, w).1 != x) = true := by simp [hk]
        rw [List.filter_cons_of_pos (by exact hk')]
        simp only [List.lookup]
        cases y == k
        · exact ih
        · rfl

theorem step_mem_write {s : State} {a b bs rest} (h1 : s.turn = .host) (hp : s.host.prog = .memWrite a (b :: bs) :: rest) :
    step s = s.takeTurn.atMemByte a (.next (({ s.takeTurn with mem := s.mem.write a b } : State).withProg
        (if bs = [] then rest else .memWrite (a + 1) bs :: rest))) := by
  have hp' : s.takeTurn.host.prog = _ := hp
  simp only [step, h1, agentStep, hostStep, hp', State.hostMemWrite, takeTurn_mem]

/-- One byte read of an MR: the last one binds the variable, an earlier one leaves the rest to be read (R66). -/
theorem step_mem_read {s : State} {a n x got rest} (h1 : s.turn = .host)
    (hp : s.host.prog = .memRead a (n + 1) x got :: rest) :
    step s = s.takeTurn.atMemByte a (.next
      (if n = 0 then (s.takeTurn.withProg rest).bindVar x (.bytes (got ++ [s.mem.read a]))
       else s.takeTurn.withProg (.memRead (a + 1) n x (got ++ [s.mem.read a]) :: rest))) := by
  have hp' : s.takeTurn.host.prog = _ := hp
  simp only [step, h1, agentStep, hostStep, hp', State.hostMemRead, takeTurn_mem]
  by_cases hn : n = 0
  · rw [if_pos hn, if_pos hn]
  · rw [if_neg hn, if_neg hn]

@[simp] theorem takeTurn_races (s : State) (a) : s.takeTurn.races a = s.races a := rfl

/-! ## Bytes no running command owns -/

theorem inRegion_false {base len a : Nat} : inRegion base len a = false ↔ ¬ (base ≤ a ∧ a < base + len) := by
  simp [inRegion]

/-- Address `a` is outside the written region of the running command when it is outside that of every success. -/
theorem inWritten_false {s : State} {a : Nat}
    (h : ∀ ws o, runCommand s = .ok ws (some o) → ¬ (s.db ≤ a ∧ a < s.db + o.len)) : s.inWritten a = false := by
  have empty : inRegion s.db 0 a = false := inRegion_false.2 (by omega)
  unfold State.inWritten
  cases hr : runCommand s with
  | err c i => exact empty
  | ok ws out =>
    cases out with
    | none => exact empty
    | some o => exact inRegion_false.2 (h ws o hr)

/-- A free byte is no race. -/
theorem races_of_freeByte {s : State} {a : Nat} (h : FreeByte s a) : s.races a = false := by
  unfold State.races
  cases hb : s.regs.status.busy with
  | false => rfl
  | true =>
    obtain ⟨hs, hw⟩ := h.2 hb
    have h1 : s.inSource a = false := inRegion_false.2 hs
    simp [h1, inWritten_false hw]

/-- A host access to a free byte goes ahead. -/
theorem atMemByte_free {s : State} {a : Nat} (h : FreeByte s a) (act : Answer) : s.takeTurn.atMemByte a act = act := by
  have hr : s.takeTurn.races a = false := races_of_freeByte h
  have hm : ¬ s.takeTurn.cfg.memBytes ≤ a := Nat.not_le.2 h.1
  rw [State.atMemByte, if_neg hm, hr, if_neg Bool.false_ne_true]

theorem coherent_of_register_write {s : State} {R : Regs} (h : s.regs.coherent) (h2 : R.errinfo = s.regs.errinfo) (h3 : R.outWidth = s.regs.outWidth) (h4 : R.outHeight = s.regs.outHeight)
   (h5 : R.outLen = s.regs.outLen) (h6 : R.status = { s.regs.status with ovr := R.status.ovr }) : R.coherent := by
  unfold Regs.coherent at *
  rw [h2, h3, h4, h5, h6]
  exact h

theorem freeCells_addr {d base len : Nat} {c : Host.Cell} (h : c ∈ freeCells d base len) : base ≤ c.1 ∧ c.1 < base + len := by
  obtain ⟨k, hk, rfl⟩ := List.mem_map.1 h
  have := List.mem_range.1 hk
  simp only; omega

/-! ## PERFORM and the invariant -/

/-- PERFORM keeps the invariant. -/
theorem complete_inv (s : State) (h : s.Inv) (hb : s.regs.status.busy = true) : (s.complete (runCommand s)).Inv ∧ (s.complete (runCommand s)).cfg = s.cfg := by
  obtain ⟨hc, hm, hbl, h1, h2, h3, h4, h5, h6⟩ := h
  obtain ⟨hd, he, hf⟩ := h1 hb
  have hcode : s.regs.status.errcode = .none := by by_contra hn; rw [h3.2 hn] at he; cases he
  rcases runCommand_cases s with ⟨c, f, hr, hcn⟩ | hr | ⟨ws, o, hr, hw, hdc, hfit, -⟩
  · rw [hr]
    refine ⟨⟨hc, hm, hbl, ?_⟩, rfl⟩
    simp [State.complete, State.completeErr, Status.failed, Regs.coherent, hf, hcn]
  · rw [hr]
    refine ⟨⟨hc, hm, hbl, ?_⟩, rfl⟩
    simp [State.complete, State.completeOk, Status.completed, Regs.withOut, Regs.coherent, hf, hcode, he, h5 he]
  · rw [hr]
    refine ⟨⟨hc, memory_apply_wf hm _, memory_apply_below hbl fun c hcm => by have := hw.inside c hcm; exact Nat.lt_of_lt_of_le (Nat.lt_of_lt_of_le this.2 (Nat.add_le_add_left hdc _)) hfit, ?_⟩, rfl⟩
    simp [State.complete, State.completeOk, Status.completed, Regs.withOut, Regs.coherent, hf, hcode, he, h5 he]

end Sys2Proof.Machine
end

