-- ==== Sys2Proof/Tests/Slice0.lean ====
section
/-! SUPPORT. Tests with expected values from spec/95_test_vectors.md (the vector is named in each comment), the smoke
test of the well-formedness checks, and for each obligation with hypotheses a concrete state that meets them. -/

set_option maxRecDepth 100000

namespace Sys2Proof.Tests

open Sys2Proof.Machine

/-! ## Helpers -/

/-- The state an answer gives, if it gives one. -/
def after : Answer → State
  | .next t => t
  | .fault _ => State.reset
  | .refused _ => State.reset

/-- The `n` bytes of MEM from `a` up. -/
def bytesAt (m : Memory) (a n : Nat) : List Nat := (List.range n).map fun k => (m.read (a + k)).toNat

/-- The common start state of spec/95 with the parameter registers set and `m` in MEM. -/
def start (sb sl db dc w h : Nat) (m : Memory) : State :=
  { State.reset with
    regs := { Regs.reset with
      srcBase := u32 sb, srcLen := u32 sl, dstBase := u32 db, dstCap := u32 dc, width := u32 w, height := u32 h }
    mem := m }

/-- `s` after the host wrote the command word (R68). -/
def issued (i : Instr) (s : State) : State := s.accept (encode i)

/-- `s` with the host about to do one operation. -/
def hostDoes (s : State) (op : HostOp) : State := { s with host := { prog := [op], vars := [] } }

/-- STATUS, ERRINFO and the three results. -/
def report (s : State) : Word × Word × Nat × Nat × Nat :=
  (s.readOffset 0x10, s.readOffset 0x14, (s.readOffset 0x30).toNat, (s.readOffset 0x34).toNat,
    (s.readOffset 0x38).toNat)

/-- The bytes `bs` from address `a` up, zero bytes left out. -/
def image (a : Nat) (bs : List Nat) : Memory :=
  ((bs.zipIdx).filter fun p => p.1 != 0).map fun p => (a + p.2, BitVec.ofNat 8 p.1)

/-- The 24-bit file header of spec/95 F3 with the given size, width, height field and image size. -/
def header24 (size w h isz : Nat) : List Nat :=
  [0x42, 0x4D, size, 0, 0, 0, 0, 0, 0, 0, 0x36, 0, 0, 0, 0x28, 0, 0, 0, w, 0, 0, 0] ++
  [h % 256, h / 256 % 256, h / 65536 % 256, h / 16777216] ++
  [1, 0, 0x18, 0, 0, 0, 0, 0, isz, 0, 0, 0, 0, 0, 0, 0, 0, 0, 0, 0, 0, 0, 0, 0, 0, 0, 0, 0]

/-- File F3 of spec/95 section 3.2 (bottom-up). -/
def fileF3 : List Nat :=
  header24 0x4E 3 2 0x18 ++ [0xFF, 0xFF, 0xFF, 0, 0, 0, 0xC8, 0x96, 0x64, 0, 0, 0] ++
  [0, 0, 0xFF, 0, 0xFF, 0, 0xFF, 0, 0, 0, 0, 0]

/-- File F3T (top-down). -/
def fileF3T : List Nat :=
  header24 0x4E 3 0xFFFFFFFE 0x18 ++ [0, 0, 0xFF, 0, 0xFF, 0, 0xFF, 0, 0, 0, 0, 0] ++
  [0xFF, 0xFF, 0xFF, 0, 0, 0, 0xC8, 0x96, 0x64, 0, 0, 0]

/-! ## Well-formedness -/

/-- RSVD ≠ 0 (R55, R58). -/
theorem test_reserved_bits_are_not_legal : legalWord 0x00000101#32 = false := by decide

/-- OP 0x06 (R58). -/
theorem test_reserved_op_is_not_legal : legalWord 0x00000006#32 = false := by decide

theorem test_blur_word_is_legal : legalWord 0x00000005#32 = true := by decide

/-- A misaligned register access (R17). -/
theorem test_misaligned_access_is_ill_formed :
    (HostOp.read 0x40000002 4 0).wellFormed Config.reference = false := by decide

/-- A narrow register access (R17). -/
theorem test_narrow_access_is_ill_formed :
    (HostOp.write 0x4000000C 2 (.lit 0#32)).wellFormed Config.reference = false := by decide

/-- Access outside the window (R16). -/
theorem test_access_outside_window_is_ill_formed :
    (HostOp.poll 0x40000100 0#32 0#32).wellFormed Config.reference = false := by decide

/-- MEM bytes that do not exist (R38). -/
theorem test_bytes_above_mem_are_ill_formed :
    (HostOp.memWrite 0xFFFF [1, 2]).wellFormed Config.reference = false ∧
    (HostOp.memRead 0x10000 1 0 []).wellFormed Config.reference = false := by decide

theorem test_aligned_access_is_well_formed :
    (opWR Config.reference .outLen (.lit 0#32)).wellFormed Config.reference = true := by decide

/-- Parameters outside R6's ranges. -/
theorem test_bad_parameters_are_refused :
    ¬ Config.ok ⟨0, 4, 0⟩ ∧ ¬ Config.ok ⟨0x10000, 0, 0⟩ ∧ ¬ Config.ok ⟨0x10000, 4, 0x10⟩ ∧
    ¬ Config.ok ⟨2 ^ 32 + 1, 4, 0⟩ ∧ Config.ok ⟨2 ^ 32, 2 ^ 32 - 1, 0x100⟩ := by decide

/-! ## Decoding: the words of R56 written out, and illegal words of section 7.3 -/

theorem test_decode_nop : decode 0b00000000000000000000000000000000#32 = .instr .nop := by decide

theorem test_decode_decode : decode 0b00000000000000000000000000000001#32 = .instr .decode := by decide

theorem test_decode_encode : decode 0b00000000000000000000000000000010#32 = .instr .encode := by decide

theorem test_decode_rotcw : decode 0b00000000000000000000000000000011#32 = .instr .rotcw := by decide

theorem test_decode_rotccw : decode 0b00000000000000000000000000000100#32 = .instr .rotccw := by decide

theorem test_decode_blur : decode 0b00000000000000000000000000000101#32 = .instr .blur := by decide

theorem test_illegal_words :
    decode 0x00000006#32 = .illegal (.reservedOp 6#8) ∧ decode 0x000000FF#32 = .illegal (.reservedOp 0xFF#8) ∧
    decode 0x00000101#32 = .illegal (.reservedBits 1#24) ∧ decode 0x80000005#32 = .illegal (.reservedBits 0x800000#24) :=
  by decide

/-- No two rows of the table match one word. -/
theorem test_table_rows_do_not_overlap : opcodeTable.Pairwise (fun p q => p.value ≠ q.value) := by decide

theorem test_table_words :
    decodeTableWord 32 0 = some .nop ∧ decodeTableWord 32 5 = some .blur ∧ decodeTableWord 32 6 = none := by decide

/-- The next step runs the fetched word: NOP, then an illegal word (section 7.3). -/
theorem test_step_runs_the_fetched_word :
    report (after (step (State.reset.withFetchWord 32 0))) = (0x00000002#32, 0#32, 0, 0, 0) ∧
    report (after (step (State.reset.withFetchWord 32 0x101))) = (0x00000606#32, 0x00000101#32, 0, 0, 0) := by decide

/-! ## Commands -/

/-- RG-11: NOP keeps OUT = (2, 3, 6). -/
theorem test_nop_keeps_results :
    report (after (exec .nop (issued .nop
      { State.reset with regs := { Regs.reset with outWidth := 2#32, outHeight := 3#32, outLen := 6#32 } }))) =
      (0x00000002#32, 0#32, 2, 3, 6) := by decide

/-- Vector D-1: F3, TOPDOWN = 1. -/
theorem test_decode_bottom_up :
    bytesAt (after (exec .decode (issued .decode (start 0x100 78 0x1000 6 0 0 (image 0x100 fileF3))))).mem 0x1000 6 =
      [0x4C, 0x96, 0x1C, 0xFF, 0x00, 0x8C] := by decide

/-- Vector D-4: F3T, TOPDOWN = 0: the sign is ignored. -/
theorem test_decode_sign_ignored :
    bytesAt (after (exec .decode (issued .decode
      (((start 0x100 78 0x1000 6 0 0 (image 0x100 fileF3T))).writeOffset 0x08 0#32)))).mem 0x1000 6 =
      [0xFF, 0x00, 0x8C, 0x4C, 0x96, 0x1C] := by decide

/-- Vector E-1: the 54 header bytes of the 3×2 file. -/
theorem test_encode_header :
    (encodeHeader 3 2).map BitVec.toNat =
      [0x42, 0x4D, 0x3E, 0x04, 0, 0, 0, 0, 0, 0, 0x36, 0x04, 0, 0, 0x28, 0, 0, 0, 3, 0, 0, 0, 2, 0, 0, 0, 1, 0, 8, 0, 0, 0,
       0, 0, 8, 0, 0, 0, 0, 0, 0, 0, 0, 0, 0, 0, 0, 1, 0, 0, 0, 0, 0, 0] := by decide

/-- Vector E-3: the pixel section, bottom row first, three zero pad bytes a row. -/
theorem test_encode_pixels :
    ((encodeWrites (issued .encode (start 0x1000 0 0x2000 2000 1 3 (image 0x1000 [0x0A, 0x0B, 0x0C])))).drop 1078).map
      (fun c => (c.1, c.2.toNat)) =
      [(0x2436, 0x0C), (0x2437, 0), (0x2438, 0), (0x2439, 0), (0x243A, 0x0B), (0x243B, 0), (0x243C, 0), (0x243D, 0),
       (0x243E, 0x0A), (0x243F, 0), (0x2440, 0), (0x2441, 0)] := by decide

/-- The 3×2 source of section 5. -/
def rotSource : State := start 0x100 0 0x200 6 3 2 (image 0x100 [1, 2, 3, 4, 5, 6])

/-- Vector RT-1. -/
theorem test_rotcw :
    bytesAt (after (exec .rotcw (issued .rotcw rotSource))).mem 0x200 6 = [4, 1, 5, 2, 6, 3] ∧
    report (after (exec .rotcw (issued .rotcw rotSource))) = (0x00000002#32, 0#32, 2, 3, 6) := by decide

/-- Vector RT-2. -/
theorem test_rotccw :
    bytesAt (after (exec .rotccw (issued .rotccw rotSource))).mem 0x200 6 = [3, 6, 2, 5, 1, 4] ∧
    report (after (exec .rotccw (issued .rotccw rotSource))) = (0x00000002#32, 0#32, 2, 3, 6) := by decide

/-- The 5×5 image of vector B-1 (255 at (2, 2)). -/
def blurSource : State := start 0x100 0 0x1000 25 5 5 [(0x10C, 0xFF#8)]

/-- Vector B-1. -/
theorem test_blur_spike :
    bytesAt (after (exec .blur (issued .blur blurSource))).mem 0x1000 25 =
      [0, 0, 0, 0, 0, 0, 0, 0, 0, 0, 0, 0, 38, 0, 0, 0, 0, 0, 0, 0, 0, 0, 0, 0, 0] := by decide

/-- Vector B-6: the four interior sums' first, (2, 2): mac 24224, quotient 88, from `v(x, y) = (7x² + 11y²) mod 256`. -/
theorem test_blur_mac :
    mac (fun x y => BitVec.ofNat 8 (7 * x * x + 11 * y * y)) 2 2 = 24224 ∧
    (gauss (fun x y => BitVec.ofNat 8 (7 * x * x + 11 * y * y)) 2 2).toNat = 88 := by decide

/-- Section 3.1: luma(0, 23, 13) = 15, luma(255, 255, 254) = 254. -/
theorem test_luma : luma 0#8 23#8 13#8 = 15#8 ∧ luma 255#8 255#8 254#8 = 254#8 := by decide

/-- Section 2: strides. -/
theorem test_stride : stride 5 3 = 16 ∧ stride 9 1 = 12 ∧ stride 2147483647 3 = 6442450944 := by decide

/-- Section 8: partitions. -/
theorem test_partition :
    partition 0 10 4 = [(0, 2), (2, 4), (4, 6), (6, 10)] ∧ partition 2 3 4 = [(2, 3)] ∧ partition 2 2 4 = [] ∧
    partition 2 8 4 = [(2, 3), (3, 4), (4, 5), (5, 8)] := by decide

/-! ## Errors (section 7) -/

/-- Vectors DE-16 (ALLOCATION, FATAL) and DE-14 (saturated detail). -/
theorem test_decode_errors :
    report (after (exec .decode (issued .decode (start 0x100 78 0x1000 5 0 0 (image 0x100 fileF3))))) =
      (0x0000050E#32, 6#32, 0, 0, 0) ∧
    report (after (exec .decode (issued .decode (start 0x100 78 0x1000 64 0 0
      (((image 0x100 fileF3).write 0x112 0xFF#8).apply [(0x113, 0xFF#8), (0x114, 0xFF#8), (0x115, 0x7F#8)]))))) =
      (0x00000306#32, 0xFFFFFFFF#32, 0, 0, 0) := by decide

/-- Vectors XE-6 for ENCODE and XE-7 for ROTCW. -/
theorem test_transform_errors :
    report (after (exec .encode (issued .encode (start 0x100 0 0xFFFC 2000 3 2 [])))) = (0x00000106#32, 1#32, 0, 0, 0) ∧
    report (after (exec .rotcw (issued .rotcw (start 0x100 0 0x200 5 3 2 [])))) = (0x0000050E#32, 6#32, 0, 0, 0) := by
  decide

/-! ## Host steps (section 9) -/

/-- RG-2: reserved CTRL bits. -/
theorem test_ctrl_reserved_bits : (State.reset.writeOffset 0x08 0xFFFFFFFF#32).readOffset 0x08 = 1#32 := by decide

/-- RG-8: a second CMD write before PERFORM gives STATUS 0x00000011. -/
theorem test_overrun :
    (after (step { hostDoes (issued .decode State.reset) (opWR Config.reference .cmd (.lit 0#32)) with
      sched := [.host] })).readOffset 0x10 = 0x00000011#32 := by decide

/-- RG-6: a write of all ones to STATUS 0x616 leaves 0x606. -/
theorem test_status_write :
    (({ State.reset with regs := { Regs.reset with
        status := { busy := false, done := true, err := true, fatal := false, ovr := true, errcode := .illegalCommand } } }
      : State).writeOffset 0x10 0xFFFFFFFF#32).readOffset 0x10 = 0x00000606#32 := by decide

/-- RG-1, one step: RD ID. -/
theorem test_read_id :
    (after (step (hostDoes State.reset (opRD Config.reference .id 7)))).host.lookup 7 = some (.word 0x424D4331#32) := by
  decide

/-- R67: RUN BLUR is the CMD write and the poll of BUSY. -/
theorem test_run_expansion :
    pseudoRUN Config.reference .blur =
      [.write 0x4000000C 4 (.lit 5#32), .poll 0x40000010 1#32 0#32] := by decide

/-! ## Witnesses: concrete states that meet the hypotheses of the obligations -/

/-- A running engine that has the next turn. -/
def running (i : Instr) : State := issued i rotSource

/-- A halted engine: XE-7's ALLOCATION. -/
def halted : State := after (exec .rotcw (issued .rotcw (start 0x100 0 0x200 5 3 2 [])))

/-- A running engine while the host has the next turn and does `op`. -/
def hostInRun (s : State) (op : HostOp) : State := { hostDoes s op with sched := [.host] }

theorem witness_EngineTurnRunsTheDecodedCommand :
    ∀ i ∈ [Instr.nop, .decode, .encode, .rotcw, .rotccw, .blur],
      (running i).turn = .engine ∧ (running i).regs.status.busy = true ∧ decode (running i).lat.cmd = .instr i := by
  decide

/-- Both kinds of illegal word: OP at its least reserved value, RSVD at its least nonzero value. -/
theorem witness_IllegalWordEndsWithIllegalCommand :
    ((rotSource.accept 0x00000006#32).turn = .engine ∧ (rotSource.accept 0x00000006#32).regs.status.busy = true ∧
      6 ≤ (rotSource.accept 0x00000006#32).lat.cmd.toNat % 256) ∧
    ((rotSource.accept 0x00000100#32).turn = .engine ∧ (rotSource.accept 0x00000100#32).regs.status.busy = true ∧
      (rotSource.accept 0x00000100#32).lat.cmd.toNat / 256 ≠ 0) := by decide

theorem witness_IdleEngineTurnChangesNothing :
    ({ rotSource with sched := [.engine] } : State).turn = .engine ∧ rotSource.regs.status.busy = false := by decide

theorem witness_OnlyHostAccessesStopTheMachine :
    (running .blur).turn ≠ .host ∧ ({ rotSource with sched := [.reset] } : State).turn ≠ .host := by decide

/-- Two host turns, one of them a register write, before PERFORM. -/
theorem witness_PerformComesAfterAnyHostDelay :
    ∃ s t : State, s.regs.status.busy = true ∧ s.sched = List.replicate 2 .host ∧ core.run 2 s = .next t :=
  ⟨{ hostDoes (running .rotcw) (opWR Config.reference .width (.lit 9#32)) with sched := [.host, .host] }, _, by decide,
    by decide, rfl⟩

theorem witness_CmdWriteIsAcceptedWhenIdle :
    (hostDoes rotSource (opWR Config.reference .cmd (.lit 3#32))).turn = .host ∧
    (hostDoes rotSource (opWR Config.reference .cmd (.lit 3#32))).host.prog =
      .write (rotSource.cfg.regBase + 0x0C) 4 (.lit 3#32) :: [] ∧
    rotSource.regs.status.busy = false ∧ rotSource.regs.status.fatal = false := by decide

/-- One state for BUSY = 1 and one for FATAL = 1. -/
theorem witness_CmdWriteIsIgnoredWhenBusyOrHalted :
    ((hostInRun (running .nop) (opWR Config.reference .cmd (.lit 0#32))).turn = .host ∧
      (hostInRun (running .nop) (opWR Config.reference .cmd (.lit 0#32))).host.prog =
        .write (rotSource.cfg.regBase + 0x0C) 4 (.lit 0#32) :: [] ∧
      (running .nop).regs.status.busy = true) ∧
    ((hostDoes halted (opWR Config.reference .cmd (.lit 0#32))).turn = .host ∧
      (hostDoes halted (opWR Config.reference .cmd (.lit 0#32))).host.prog =
        .write (halted.cfg.regBase + 0x0C) 4 (.lit 0#32) :: [] ∧
      halted.regs.status.fatal = true) := by decide

theorem witness_OnlyResetLeavesHalted :
    ∃ s t : State, s.engine = .halted ∧ s.turn ≠ .reset ∧ step s = .next t :=
  ⟨hostDoes halted (opWR Config.reference .cmd (.lit 0#32)), _, by decide, by decide, rfl⟩

theorem witness_HostStepsDoNotDisturbARunningCommand :
    ∃ s t : State, s.mem.wf ∧ s.regs.status.busy = true ∧ s.turn = .host ∧ step s = .next t :=
  ⟨hostInRun (running .rotcw) (opMW 0x300 [0xAA#8]), _, by decide, by decide, by decide, rfl⟩

/-- OVR cleared by a write to STATUS, and by reset. -/
theorem witness_OvrIsClearedOnlyByStatusWriteOrReset :
    (∃ s t : State, s.turn = .host ∧ s.regs.status.ovr = true ∧ step s = .next t ∧ t.regs.status.ovr = false) ∧
    (∃ s t : State, s.turn = .reset ∧ s.regs.status.ovr = true ∧ step s = .next t ∧ t.regs.status.ovr = false) :=
  ⟨⟨hostDoes { rotSource with regs := { rotSource.regs with status := rotSource.regs.status.overrun } }
      (opWR Config.reference .status (.lit 0x10#32)), _, by decide, by decide, rfl, by decide⟩,
    ⟨{ rotSource with
        regs := { rotSource.regs with status := rotSource.regs.status.overrun }
        sched := [.reset] }, _, by decide, by decide, rfl, rfl⟩⟩

/-- Legal parameters at both ends of R6's ranges. -/
theorem witness_RegisterMapAfterPowerUp :
    Config.ok ⟨1, 1, 0⟩ ∧ Config.ok ⟨2 ^ 32, 2 ^ 32 - 1, 0xFFFFFF00⟩ ∧
    (0x38 : Nat) ∈ [0x0C, 0x10, 0x14, 0x18, 0x1C, 0x20, 0x24, 0x28, 0x2C, 0x30, 0x34, 0x38] := by decide

/-- The reserved range at both ends; it holds no read-only register. -/
theorem witness_ReservedAndReadOnlyWritesAreIgnored :
    (0x3C ≤ 0x3C ∧ 0x3C < 0x100) ∧ (0x3C ≤ 0xFC ∧ 0xFC < 0x100) ∧
    (0x38 : Nat) ∈ [0x00, 0x04, 0x14, 0x30, 0x34, 0x38] := by decide

theorem witness_ParameterRegistersReadBackWhatIsWritten :
    (0x18 : Nat) ∈ [0x18, 0x1C, 0x20, 0x24, 0x28, 0x2C] ∧ (0x2C : Nat) ∈ [0x18, 0x1C, 0x20, 0x24, 0x28, 0x2C] ∧
    (0x1C : Nat) ≠ 0x18 := by decide

/-- A narrow write, a misaligned read and a misaligned poll, at the last offset of the window too. -/
theorem witness_BadRegisterAccessIsRefused :
    ((hostDoes rotSource (.write (rotSource.cfg.regBase + 0xFC) 2 (.lit 0#32))).turn = .host ∧ 0xFC < 256 ∧ 2 ≠ 4) ∧
    ((hostDoes rotSource (.read (rotSource.cfg.regBase + 0xFF) 4 0)).turn = .host ∧ 0xFF < 256 ∧ 0xFF % 4 ≠ 0) ∧
    ((hostDoes rotSource (.poll (rotSource.cfg.regBase + 1) 0#32 0#32)).turn = .host ∧ 1 < 256 ∧ 1 % 4 ≠ 0) := by
  decide

theorem witness_RegisterReadHasNoSideEffect :
    (hostDoes rotSource (.read (rotSource.cfg.regBase + 0xFC) 4 5)).turn = .host ∧ 0xFC < 256 ∧ 0xFC % 4 = 0 ∧
    (hostDoes rotSource (.read (rotSource.cfg.regBase + 0xFC) 4 5)).host.prog =
      .read (rotSource.cfg.regBase + 0xFC) 4 5 :: [] ∧ (6 : Nat) ≠ 5 := by decide

/-- A number written to the last offset of the window, a variable that holds a word written to WIDTH, and a variable
that holds none. -/
theorem witness_HostRegisterWriteActsAtItsOffset :
    ((hostDoes rotSource (.write (rotSource.cfg.regBase + 0xFC) 4 (.lit 1#32))).turn = .host ∧ 0xFC < 256 ∧
      0xFC % 4 = 0 ∧
      (hostDoes rotSource (.write (rotSource.cfg.regBase + 0xFC) 4 (.lit 1#32))).host.prog =
        .write (rotSource.cfg.regBase + 0xFC) 4 (.lit 1#32) :: []) ∧
    ({ rotSource with host := ⟨[opWR rotSource.cfg .width (.var 5)], [(5, .word 9#32)]⟩ } : State).host.lookup 5 =
      some (.word 9#32) ∧
    (∀ w, (hostDoes rotSource (opWR rotSource.cfg .width (.var 5))).host.lookup 5 ≠ some (.word w)) :=
  ⟨by decide, by decide, fun w h => by cases h⟩

/-- R29, R67, one step: a WR of a variable's word to WIDTH reads back. -/
theorem test_register_write_step :
    (after (step { rotSource with host := ⟨[opWR rotSource.cfg .width (.var 5)], [(5, .word 0xFFFFFFFF#32)]⟩ })).readOffset
      0x28 = 0xFFFFFFFF#32 := by decide

/-- A poll whose condition holds and one whose condition does not. -/
theorem witness_PollRepeatsUntilItsConditionHolds :
    ((hostDoes rotSource (opPOLL Config.reference .status 1#32 0#32)).turn = .host ∧
      (hostDoes rotSource (opPOLL Config.reference .status 1#32 0#32)).host.prog =
        .poll (rotSource.cfg.regBase + 0x10) 1#32 0#32 :: [] ∧ rotSource.readOffset 0x10 &&& 1#32 = 0#32) ∧
    ((hostInRun (running .blur) (opPOLL Config.reference .status 1#32 0#32)).turn = .host ∧
      (hostInRun (running .blur) (opPOLL Config.reference .status 1#32 0#32)).host.prog =
        .poll (rotSource.cfg.regBase + 0x10) 1#32 0#32 :: [] ∧
      (running .blur).readOffset 0x10 &&& 1#32 ≠ 0#32) := by decide

/-! ### Races (R125): the first and last byte of each region, and the first byte beside them -/

/-- The running DECODE of F3 (78 bytes at 0x100, six samples to 0x1000). -/
def decoding : State := issued .decode (start 0x100 78 0x1000 6 0 0 (image 0x100 fileF3))

theorem witness_AccessToABusyRegionIsRefused_source :
    ((hostInRun decoding (opMW 0x100 [1#8])).turn = .host ∧ decoding.regs.status.busy = true ∧
      decode decoding.lat.cmd = .instr .decode ∧ 0x14D < decoding.cfg.memBytes ∧ decoding.sb ≤ 0x100 ∧
      0x14D < decoding.sb + decoding.sl ∧
      (hostInRun decoding (opMW 0x100 [1#8])).host.prog = .memWrite 0x100 [1#8] :: []) ∧
    ((hostInRun (running .blur) (opMR 0x105 1 0)).turn = .host ∧ decode (running .blur).lat.cmd = .instr .blur ∧
      0 < (running .blur).latW ∧ 0 < (running .blur).latH ∧ (running .blur).sb ≤ 0x100 ∧
      0x105 < (running .blur).sb + (running .blur).imgW * (running .blur).imgH ∧
      (hostInRun (running .blur) (opMR 0x105 1 0)).host.prog = .memRead 0x105 (0 + 1) 0 [] :: []) := by decide

theorem witness_AccessToABusyRegionIsRefused_written :
    ∃ ws o, runInstr .decode decoding = .ok ws (some o) ∧ decoding.db ≤ 0x1005 ∧ 0x1005 < decoding.db + o.len :=
  ⟨_, _, rfl, by decide, by decide⟩

theorem witness_AccessToABusyRegionIsRefused_free :
    Instr.decode ∈ [Instr.nop, .decode] ∧ (0 < (running .blur).latW ∧ 0 < (running .blur).latH) ∧
    ¬ (decoding.sb ≤ 0x14E ∧ 0x14E < decoding.sb + sourceLen .decode decoding) ∧
    ¬ (decoding.db ≤ 0x1006 ∧ 0x1006 < decoding.db + (runInstr .decode decoding).writtenLen) := by decide

/-- A running illegal word of each kind, with the host about to write and to read a byte. -/
theorem witness_AccessToABusyRegionIsRefused_illegal :
    ((hostInRun (rotSource.accept 0x00000006#32) (opMW 0x100 [1#8])).turn = .host ∧
      (rotSource.accept 0x00000006#32).regs.status.busy = true ∧ 0x100 < rotSource.cfg.memBytes ∧
      (hostInRun (rotSource.accept 0x00000006#32) (opMW 0x100 [1#8])).host.prog = .memWrite 0x100 (1#8 :: []) :: [] ∧
      6 ≤ (rotSource.accept 0x00000006#32).lat.cmd.toNat % 256) ∧
    ((hostInRun (rotSource.accept 0x00000100#32) (opMR 0x100 1 0)).host.prog = .memRead 0x100 (0 + 1) 0 [] :: [] ∧
      (rotSource.accept 0x00000100#32).lat.cmd.toNat / 256 ≠ 0) := by decide

/-- Width and height 0 and −1, a write and a read. -/
theorem witness_BadDimensionsLeaveEveryByteFree :
    ((hostInRun (issued .blur (start 0x100 0 0x200 6 0 2 [])) (opMW 0x100 [1#8])).turn = .host ∧
      (issued .blur (start 0x100 0 0x200 6 0 2 [])).regs.status.busy = true ∧
      decode (issued .blur (start 0x100 0 0x200 6 0 2 [])).lat.cmd = .instr .blur ∧
      (issued .blur (start 0x100 0 0x200 6 0 2 [])).latW ≤ 0 ∧
      (hostInRun (issued .blur (start 0x100 0 0x200 6 0 2 [])) (opMW 0x100 [1#8])).host.prog =
        .memWrite 0x100 (1#8 :: []) :: []) ∧
    ((issued .encode (start 0x100 0 0x200 6 3 0xFFFFFFFF [])).latH ≤ 0 ∧
      (hostInRun (issued .encode (start 0x100 0 0x200 6 3 0xFFFFFFFF [])) (opMR 0x100 1 0)).host.prog =
        .memRead 0x100 (0 + 1) 0 [] :: []) := by decide

/-- With no command running, the last byte of MEM. -/
theorem witness_HostMemAccessesStoreAndReturnTheBytes_idle :
    rotSource.mem.wf ∧ (hostDoes rotSource (opMW 0xFFFF [7#8])).turn = .host ∧
    FreeByte (hostDoes rotSource (opMW 0xFFFF [7#8])) 0xFFFF ∧
    (hostDoes rotSource (opMW 0xFFFF [7#8])).host.prog = .memWrite 0xFFFF (7#8 :: []) :: [] ∧
    (hostDoes rotSource (opMW 0x100 [])).host.prog = opMW 0x100 [] :: [] ∧
    (hostDoes rotSource (opMR 0x100 0 5)).host.prog = opMR 0x100 0 5 :: [] := by
  refine ⟨by decide, by decide, ⟨by decide, fun h => ?_⟩, by decide, by decide, by decide⟩
  exact absurd h (by decide)

/-- The bytes just behind the source and just before the destination of a running ROTCW are free. -/
theorem freeByte_of_running_rotcw (op : HostOp) {a : Nat} (h1 : 0x106 ≤ a) (h2 : a < 0x200) :
    FreeByte (hostInRun (running .rotcw) op) a := by
  have hm : (hostInRun (running .rotcw) op).cfg.memBytes = 0x10000 := rfl
  have hs : (hostInRun (running .rotcw) op).sb = 0x100 := by
    show (running .rotcw).sb = _
    decide
  have hd : (hostInRun (running .rotcw) op).db = 0x200 := by
    show (running .rotcw).db = _
    decide
  have hi : decode (hostInRun (running .rotcw) op).lat.cmd = .instr .rotcw := by
    show decode (running .rotcw).lat.cmd = _
    decide
  have hl : (hostInRun (running .rotcw) op).commandSourceLen = 6 := by
    rw [State.commandSourceLen, hi]
    show (running .rotcw).imgW * (running .rotcw).imgH = 6
    decide
  exact ⟨by omega, fun _ => ⟨by omega, fun _ _ _ => by omega⟩⟩

/-- While ROTCW runs: an MW and an MR beside its regions, and a whole MR of two bytes. -/
theorem witness_HostMemAccessesStoreAndReturnTheBytes_running :
    ((running .rotcw).mem.wf ∧ (hostInRun (running .rotcw) (opMW 0x106 [7#8])).turn = .host ∧
      FreeByte (hostInRun (running .rotcw) (opMW 0x106 [7#8])) 0x106 ∧
      (hostInRun (running .rotcw) (opMR 0x1FF 1 5)).turn = .host ∧
      FreeByte (hostInRun (running .rotcw) (opMR 0x1FF 1 5)) 0x1FF ∧
      (hostInRun (running .rotcw) (opMR 0x1FF 1 5)).host.prog = .memRead 0x1FF (0 + 1) 5 [] :: []) ∧
    ∃ s : State, s.regs.status.busy = true ∧ s.sched = List.replicate (1 + 1) .host ∧
      (∀ k ≤ 1, FreeByte s (0x106 + k)) ∧ s.host.prog = opMR 0x106 (1 + 1) 5 :: [] :=
  ⟨⟨by decide, by decide, freeByte_of_running_rotcw _ (by omega) (by omega), by decide,
      freeByte_of_running_rotcw _ (by omega) (by omega), by decide⟩,
    { hostInRun (running .rotcw) (opMR 0x106 2 5) with sched := [.host, .host] }, by decide, by decide,
    fun k hk => freeByte_of_running_rotcw (opMR 0x106 2 5) (by omega) (by omega), by decide⟩

/-- R49 (c), one step: the byte behind the running command's source stores. -/
theorem test_write_beside_a_running_command :
    (after (step (hostInRun (running .rotcw) (opMW 0x106 [0xAB#8])))).mem.read 0x106 = 0xAB#8 := by decide

/-- RT-1's source read back by the host: the last byte of an MR binds its variable (R66). -/
theorem test_mem_read_binds_the_bytes :
    (after (step (hostDoes rotSource (.memRead 0x105 1 5 [4#8, 5#8])))).host.lookup 5 =
      some (.bytes [4#8, 5#8, 6#8]) := by decide

theorem witness_AccessAboveMemBytesFaults :
    ((hostDoes rotSource (opMW 0x10000 [7#8])).turn = .host ∧ rotSource.cfg.memBytes ≤ 0x10000 ∧
      (hostDoes rotSource (opMW 0x10000 [7#8])).host.prog = .memWrite 0x10000 (7#8 :: []) :: []) ∧
    ((hostDoes rotSource (opMR 0x10000 1 0)).turn = .host ∧
      (hostDoes rotSource (opMR 0x10000 1 0)).host.prog = .memRead 0x10000 (0 + 1) 0 [] :: []) := by decide

theorem witness_MemReadReturnsWhatMemWriteStored :
   rotSource.mem.wf ∧ (3 : Nat) < 4 ∧ (0x0FF < 0x100 ∨ 0x100 + 4 ≤ 0x0FF) ∧ (0x104 < 0x100 ∨ 0x100 + 4 ≤ 0x104) := by
  decide

/-! ### Host programs -/

theorem witness_ChainCopiesTheDimensions :
    (0 : Nat) ≠ 1 ∧
    ({ rotSource with sched := List.replicate 4 .host, host := ⟨pseudoCHAIN Config.reference 0 1 ++ [], []⟩ }
      : State).sched = List.replicate 4 .host := by decide

theorem witness_RunEndsWithTheCommandCompleted :
    rotSource.regs.status.busy = false ∧ rotSource.regs.status.fatal = false ∧ rotSource.sched = [] ∧
    ({ rotSource with host := ⟨pseudoRUN Config.reference .rotcw ++ [opMR 0x200 6 0], []⟩ } : State).host.prog =
      pseudoRUN rotSource.cfg .rotcw ++ [opMR 0x200 6 0] := by decide

/-! ### Completion -/

theorem witness_SuccessfulCompletionSetsResults :
    ∃ ws o, (running .rotcw).regs.status.fatal = false ∧ runInstr .rotcw (running .rotcw) = .ok ws (some o) :=
  ⟨_, _, by decide, rfl⟩

/-- An error that is not fatal, and ALLOCATION. -/
theorem witness_ErrorCompletionRecordsTheError :
    ((issued .rotcw (start 0x100 0 0x105 6 3 2 [])).regs.status.fatal = false ∧
      runCommand (issued .rotcw (start 0x100 0 0x105 6 3 2 [])) = .err .overlap 0#32) ∧
    ((issued .rotcw (start 0x100 0 0x200 5 3 2 [])).regs.status.fatal = false ∧
      runCommand (issued .rotcw (start 0x100 0 0x200 5 3 2 [])) = .err .allocation 6#32) := by decide

/-- A success, an error, and NOP. -/
theorem witness_CommandsWriteOnlyTheirWrittenRegion :
    (∃ t, (running .rotcw).mem.wf ∧ (running .rotcw).regs.status.err = false ∧ exec .rotcw (running .rotcw) = .next t ∧
      t.regs.status.err = false ∧ (0x1FF < (running .rotcw).db ∧ (running .rotcw).db + t.regs.outLen.toNat ≤ 0x206)) ∧
    (∃ t, exec .encode (running .encode) = .next t ∧ t.regs.status.err = true) ∧
    (running .nop).regs.status.err = false :=
  ⟨⟨_, by decide, by decide, rfl, by decide, by decide⟩, ⟨_, rfl, by decide⟩, by decide⟩

theorem witness_EveryDestinationByteIsWrittenOnce : ∃ ws o, runInstr .decode decoding = .ok ws (some o) :=
  ⟨_, _, rfl⟩

/-- The writes reversed are another order. -/
theorem witness_WritesGiveTheSameMemoryInAnyOrder :
    ∃ ws ws' out, (running .rotcw).mem.wf ∧ runInstr .rotcw (running .rotcw) = .ok ws out ∧ ws'.Perm ws ∧ ws' ≠ ws :=
  ⟨_, List.reverse _, _, by decide, rfl, List.reverse_perm _, by decide⟩

/-- Two states that differ in NUM_LANES, in the registers and in a byte outside the source. -/
theorem witness_OutcomeDependsOnlyOnLatchesAndSourceBytes :
    SameInputs .rotcw (running .rotcw)
      { (running .rotcw) with
        cfg := ⟨0x10000, 1, 0⟩, regs := Regs.reset, mem := (running .rotcw).mem.write 0x106 9#8 } := by
  refine ⟨rfl, rfl, fun a h1 h2 => ?_⟩
  have h3 : a < 0x106 := h2
  have h4 : 0x100 ≤ a := h1
  interval_cases a <;> rfl

/-! ### DECODE: one state per check, and one that passes them all -/

/-- A 1×1 24-bit file (58 bytes) with the given fields, at 0x100. -/
def tiny (sig bpp comp w h : Nat) : Memory :=
  image 0x100 ([sig, 0x4D, 58, 0, 0, 0, 0, 0, 0, 0, 54, 0, 0, 0, 40, 0, 0, 0] ++ [w % 256, 0, 0, w / 256] ++
    [h % 256, 0, 0, h / 256] ++ [1, 0, bpp, 0, comp, 0, 0, 0])

/-- The running DECODE of that file. -/
def tinyRun (sb sl db dc : Nat) (m : Memory) : State := issued .decode (start sb sl db dc 0 0 m)

/-- The conditions of the checks of DECODE in `s`, in order, as the obligation writes them. -/
def decodeConds (s : State) : List Bool :=
  let hs := s32 (u32 (s.mem.readLE (s.sb + 22) 4))
  let w := s32 (u32 (s.mem.readLE (s.sb + 18) 4))
  let need := s.mem.readLE (s.sb + 10) 4 + stride w.toNat 3 * hs.natAbs
  let len := w.toNat * hs.natAbs
  [s.sb + s.sl ≤ s.cfg.memBytes, s.db + s.dc ≤ s.cfg.memBytes, 2 ≤ s.sl ∧ s.mem.readLE s.sb 2 = 0x4D42, 54 ≤ s.sl,
   s.mem.readLE (s.sb + 28) 2 = 24, s.mem.readLE (s.sb + 30) 4 = 0, 0 < w, hs ≠ 0 ∧ hs ≠ -2 ^ 31, need ≤ s.sl,
   len ≤ s.dc, ¬ (s.sb < s.db + len ∧ s.db < s.sb + s.sl)]

/-- The good 1×1 file. -/
def tinyFile : Memory := tiny 0x42 24 0 1 1

/-- For each of the eleven clauses, a state in which its check is the first to fail (numbered from 0), at the boundary
where the check has one: regions one byte too long, SRC_LEN 1, 53 and 57, width and height 0 and −2^31, DST_CAP 0, a
destination on the file's last byte. -/
theorem witness_DecodeReportsItsFirstFailingCheck_regions :
    (decodeConds (tinyRun 0xFFC7 58 0x1000 1 [])).idxOf false = 0 ∧
    (decodeConds (tinyRun 0x100 58 0xFFFF 2 tinyFile)).idxOf false = 1 := by decide

theorem witness_DecodeReportsItsFirstFailingCheck_header :
    (decodeConds (tinyRun 0x100 58 0x1000 1 (tiny 0x41 24 0 1 1))).idxOf false = 2 ∧
    (decodeConds (tinyRun 0x100 1 0x1000 1 tinyFile)).idxOf false = 2 ∧
    (decodeConds (tinyRun 0x100 53 0x1000 1 tinyFile)).idxOf false = 3 ∧
    (decodeConds (tinyRun 0x100 58 0x1000 1 (tiny 0x42 8 0 1 1))).idxOf false = 4 ∧
    (decodeConds (tinyRun 0x100 58 0x1000 1 (tiny 0x42 24 1 1 1))).idxOf false = 5 := by decide

theorem witness_DecodeReportsItsFirstFailingCheck_dimensions :
    (decodeConds (tinyRun 0x100 58 0x1000 1 (tiny 0x42 24 0 0 1))).idxOf false = 6 ∧
    (decodeConds (tinyRun 0x100 58 0x1000 1 (tiny 0x42 24 0 (128 * 256) 1))).idxOf false = 6 ∧
    (decodeConds (tinyRun 0x100 58 0x1000 1 (tiny 0x42 24 0 1 0))).idxOf false = 7 ∧
    (decodeConds (tinyRun 0x100 58 0x1000 1 (tiny 0x42 24 0 1 (128 * 256)))).idxOf false = 7 := by decide

theorem witness_DecodeReportsItsFirstFailingCheck_sizes :
    (decodeConds (tinyRun 0x100 57 0x1000 1 tinyFile)).idxOf false = 8 ∧
    (decodeConds (tinyRun 0x100 58 0x1000 0 tinyFile)).idxOf false = 9 ∧
    (decodeConds (tinyRun 0x100 58 0x139 1 tinyFile)).idxOf false = 10 := by decide

/-- A bottom-up file, and a top-down one (F3T) with TOPDOWN = 1, that pass every check; capacity exactly W·H. -/
theorem witness_DecodeCompletesWithLumaSamples :
    ((tinyRun 0x100 58 0x13A 1 tinyFile).mem.wf ∧ DecodeOk (tinyRun 0x100 58 0x13A 1 tinyFile)) ∧
    (DecodeOk (issued .decode (start 0x100 78 0x1000 6 0 0 (image 0x100 fileF3T))) ∧
      (issued .decode (start 0x100 78 0x1000 6 0 0 (image 0x100 fileF3T))).header.hs < 0 ∧
      (issued .decode (start 0x100 78 0x1000 6 0 0 (image 0x100 fileF3T))).lat.topdown = true) := by decide

/-- The 1×1 file with its file-size field changed: no byte DECODE reads differs. -/
theorem witness_IgnoredFileBytesNeverMatter :
    (∀ k, k ∈ [0, 1, 10, 11, 12, 13, 18, 19, 20, 21, 22, 23, 24, 25, 28, 29, 30, 31, 32, 33] →
      (tinyFile.write 0x102 7#8).read (0x100 + k) = tinyFile.read (0x100 + k)) ∧
    (∀ x < (tinyRun 0x100 58 0x1000 1 tinyFile).header.wn, ∀ r < (tinyRun 0x100 58 0x1000 1 tinyFile).header.hn,
      ∀ k < 3, (tinyFile.write 0x102 7#8).read (0x100 + 54 + r * 4 + 3 * x + k) =
        tinyFile.read (0x100 + 54 + r * 4 + 3 * x + k)) ∧
    tinyFile.write 0x102 7#8 ≠ tinyFile := by decide

/-! ### ENCODE and the transforms -/

/-- The conditions of the checks of ENCODE (`file = true`) or of the transforms, in order. -/
def imageConds (file : Bool) (s : State) : List Bool :=
  let len := s.imgW * s.imgH
  let out := if file then 1078 + stride s.imgW 1 * s.imgH else len
  [0 < s.latW, 0 < s.latH, s.sb + len ≤ s.cfg.memBytes, s.db + s.dc ≤ s.cfg.memBytes, out ≤ s.dc,
   ¬ (s.sb < s.db + out ∧ s.db < s.sb + len)]

/-- Vectors XE-2, XE-4, XE-5, XE-6, XE-7 and XE-8 for ENCODE. -/
theorem witness_EncodeReportsItsFirstFailingCheck :
    (imageConds true (issued .encode (start 0x100 0 0x200 2000 0xFFFFFFFF 2 []))).idxOf false = 0 ∧
    (imageConds true (issued .encode (start 0x100 0 0x200 2000 3 0x80000000 []))).idxOf false = 1 ∧
    (imageConds true (issued .encode (start 0xFFFC 0 0x200 2000 3 2 []))).idxOf false = 2 ∧
    (imageConds true (issued .encode (start 0x100 0 0xFFFC 2000 3 2 []))).idxOf false = 3 ∧
    (imageConds true (issued .encode (start 0x100 0 0x200 1085 3 2 []))).idxOf false = 4 ∧
    (imageConds true (issued .encode (start 0x100 0 0x105 2000 3 2 []))).idxOf false = 5 := by decide

/-- XE-9's destination, and a capacity of exactly the file size. -/
theorem witness_EncodeCompletesWithFileImage :
    (issued .encode (start 0x100 0 0x106 1086 3 2 (image 0x100 [1, 2, 3, 4, 5, 6]))).mem.wf ∧
    EncodeOk (issued .encode (start 0x100 0 0x106 1086 3 2 (image 0x100 [1, 2, 3, 4, 5, 6]))) := by decide

/-- The ENCODE of section 3.3's last example, and a DECODE of its 1086-byte file. -/
theorem witness_DecodeRejectsWhatEncodeWrote :
    ∃ s t u : State, s.mem.wf ∧ EncodeOk s ∧ exec .encode s = .next t ∧ u.mem = t.mem ∧ u.cfg = s.cfg ∧
      u.lat.srcBase = s.lat.dstBase ∧ u.lat.srcLen = t.regs.outLen ∧ u.db + u.dc ≤ u.cfg.memBytes :=
  ⟨issued .encode (start 0x100 0 0x106 1086 3 2 (image 0x100 [1, 2, 3, 4, 5, 6])), _,
    { issued .decode (start 0x106 1086 0x1000 100 0 0 []) with
      mem := (after (exec .encode (issued .encode (start 0x100 0 0x106 1086 3 2 (image 0x100 [1, 2, 3, 4, 5, 6]))))).mem },
    by decide, by decide, rfl, rfl, rfl, rfl, by decide, by decide⟩

/-- Vectors XE-2, XE-4, XE-5, XE-6, XE-7 and XE-8 for the transforms. -/
theorem witness_TransformsReportTheirFirstFailingCheck :
    ∀ i ∈ [Instr.rotcw, .rotccw, .blur],
      (imageConds false (issued i (start 0x100 0 0x200 6 0xFFFFFFFF 2 []))).idxOf false = 0 ∧
      (imageConds false (issued i (start 0x100 0 0x200 6 3 0x80000000 []))).idxOf false = 1 ∧
      (imageConds false (issued i (start 0xFFFC 0 0x200 6 3 2 []))).idxOf false = 2 ∧
      (imageConds false (issued i (start 0x100 0 0xFFFC 6 3 2 []))).idxOf false = 3 ∧
      (imageConds false (issued i (start 0x100 0 0x200 5 3 2 []))).idxOf false = 4 ∧
      (imageConds false (issued i (start 0x100 0 0x105 6 3 2 []))).idxOf false = 5 := by decide

theorem witness_RotcwCompletesWithTheClockwiseTurn : (running .rotcw).mem.wf ∧ TransformOk (running .rotcw) := by decide

theorem witness_RotccwCompletesWithTheCounterclockwiseTurn :
    (running .rotccw).mem.wf ∧ TransformOk (running .rotccw) := by decide

/-- The 5×5 image has the one interior pixel (2, 2); its border starts beside it. -/
theorem witness_BlurCompletesWithTheConvolution :
    (issued .blur blurSource).mem.wf ∧ TransformOk (issued .blur blurSource) ∧
    (issued .blur blurSource).imgW = 5 ∧ (issued .blur blurSource).imgH = 5 := by decide

/-- A state that runs on what the rotation of `s` left in `t`, writing to `db`. -/
def chainOn (s t : State) (i : Instr) (db : Nat) : State :=
  issued i { t with regs := { t.regs with
    srcBase := s.lat.dstBase, dstBase := u32 db, width := t.regs.outWidth, height := t.regs.outHeight } }

/-- The rotation `i` of section 5's source, then `j` on its output. -/
def turned (i j : Instr) : State := chainOn (running i) (after (exec i (running i))) j 0x300

theorem witness_RotationLawsHold_inverse :
    ((running .rotcw).mem.wf ∧ TransformOk (running .rotcw) ∧
      ChainedOn (running .rotcw) (after (exec .rotcw (running .rotcw))) (turned .rotcw .rotccw) ∧
      TransformOk (turned .rotcw .rotccw)) ∧
    ((running .rotccw).mem.wf ∧ TransformOk (running .rotccw) ∧
      ChainedOn (running .rotccw) (after (exec .rotccw (running .rotccw))) (turned .rotccw .rotcw) ∧
      TransformOk (turned .rotccw .rotcw)) := by decide

/-- ROTCW twice, and the third and fourth turn. -/
theorem witness_RotationLawsHold_turns :
    let s := running .rotcw
    let t := after (exec .rotcw s)
    let u := turned .rotcw .rotcw
    let v := after (exec .rotcw u)
    let u' := chainOn u v .rotcw 0x400
    let t' := after (exec .rotcw u')
    let u'' := chainOn u' t' .rotcw 0x500
    ChainedOn s t u ∧ TransformOk u ∧ ChainedOn u v u' ∧ TransformOk u' ∧ ChainedOn u' t' u'' ∧ TransformOk u'' := by
  decide

theorem witness_RotationMapsAreBijections :
    (1 : Nat) ≤ 1 ∧ (1 : Nat) ≤ 3 ∧ (0 : Nat) < 1 ∧ (2 : Nat) < 3 ∧ (2 : Nat) < 1 * 3 := by decide

/-- A uniform window, at the first interior pixel. -/
theorem witness_GaussStaysWithinItsWindow :
    (2 : Nat) ≤ 2 ∧ ∀ i < 5, ∀ j < 5, 37 ≤ ((fun _ _ => 37#8 : Nat → Nat → Byte) (2 + i - 2) (2 + j - 2)).toNat ∧
      ((fun _ _ => 37#8 : Nat → Nat → Byte) (2 + i - 2) (2 + j - 2)).toNat ≤ 37 := by decide

/-- A 5×5 image (border only around (2, 2)) and a 3×2 one, which has no interior. -/
theorem witness_BlurKeepsBorderAndSmallImages :
    (∃ t, exec .blur (issued .blur blurSource) = .next t) ∧ TransformOk (issued .blur blurSource) ∧
    (∃ t, exec .blur (running .blur) = .next t) ∧ TransformOk (running .blur) ∧ (running .blur).imgW < 5 :=
  ⟨⟨_, rfl⟩, by decide, ⟨_, rfl⟩, by decide, by decide⟩

theorem witness_RowStrideLaw : (1 : Nat) ≤ 1 := by decide

theorem witness_PartitionGivesEveryRowOnce : (2 : Nat) < 3 ∧ (1 : Nat) ≤ 1 := by decide

/-! ### Reset, latches, invariant -/

/-- Reset while idle and while running. -/
theorem witness_ResetInputRestoresRegisters :
    (({ rotSource with sched := [.reset] } : State).turn = .reset ∧ rotSource.regs.status.busy = false) ∧
    ({ running .rotcw with sched := [.reset] } : State).turn = .reset := by decide

/-- RG-10 (a command that would succeed), and one that would fail. -/
theorem witness_ResetWhileRunningTouchesOnlyTheDestination :
    (∃ t, ({ running .rotcw with sched := [.reset] } : State).mem.wf ∧
      ({ running .rotcw with sched := [.reset] } : State).turn = .reset ∧
      (running .rotcw).regs.status.busy = true ∧ step { running .rotcw with sched := [.reset] } = .next t) ∧
    (∃ ws out, decode (running .rotcw).lat.cmd = .instr .rotcw ∧
      runInstr .rotcw { running .rotcw with sched := [.reset] } = .ok ws out) ∧
    runCommand { running .encode with sched := [.reset] } = .err .fileOpen 1#32 :=
  ⟨⟨_, by decide, by decide, by decide, rfl⟩, ⟨_, _, by decide, rfl⟩, by decide⟩

/-- A step that writes the latches (an acceptance) and one that leaves them. -/
theorem witness_LatchesAreNotReadBeforeAcceptance :
    ∃ t t', rotSource.regs.status.busy = false ∧
      step (hostDoes rotSource (opWR Config.reference .cmd (.lit 3#32))) = .next t ∧
      step (hostDoes rotSource (opMW 0x300 [1#8])) = .next t' :=
  ⟨_, _, by decide, rfl, rfl⟩

/-- The invariant before a PERFORM, before a host write and before reset. -/
theorem witness_StepKeepsTheInvariant :
    (∃ t, (running .rotcw).Inv ∧ step (running .rotcw) = .next t) ∧
    (∃ t, (hostDoes rotSource (opMW 0xFFFF [1#8])).Inv ∧ step (hostDoes rotSource (opMW 0xFFFF [1#8])) = .next t) ∧
    (∃ t, ({ running .blur with sched := [.reset] } : State).Inv ∧
      step { running .blur with sched := [.reset] } = .next t) :=
  ⟨⟨_, by decide, rfl⟩, ⟨_, by decide, rfl⟩, ⟨_, by decide, rfl⟩⟩

theorem witness_PowerUpHasTheInvariant :
    Config.reference.ok ∧ Memory.wf [(0xFFFF, 1#8)] ∧ Memory.below [(0xFFFF, 1#8)] Config.reference.memBytes := by decide

end Sys2Proof.Tests
end

section
/-! PROOFS. The statements about the machine's invariant, the memory functions of R10, and the order of a command's
writes. -/

namespace Sys2Proof.Machine

/-! ## Every step keeps the invariant -/

/-- Acceptance (R68) by an engine that is neither RUNNING nor HALTED gives coherent registers, whatever the command
before left. -/
theorem coherent_accepted {r : Regs} (hfatal : r.status.fatal = false) :
    Regs.coherent { r with status := r.status.accepted, errinfo := 0#32 } := by
  simp [Regs.coherent, Status.accepted, hfatal]

/-- A register write keeps the invariant: it is an acceptance, or it leaves all that `Regs.coherent` speaks of. -/
theorem writeOffset_inv {s : State} (h : s.Inv) (off : Nat) (v : Word) :
    (s.writeOffset off v).Inv ∧ (s.writeOffset off v).cfg = s.cfg := by
  obtain ⟨hcfg, hwf, hbelow, hcoh⟩ := h
  rcases writeOffset_cases s off v with
    ⟨-, -, hfatal, heq⟩ | ⟨R, heq, hinfo, hwidth, hheight, hlen, hstatus, -⟩
  · rw [heq]
    exact ⟨⟨hcfg, hwf, hbelow, coherent_accepted hfatal⟩, rfl⟩
  · rw [heq]
    exact ⟨⟨hcfg, hwf, hbelow, coherent_of_register_write hcoh hinfo hwidth hheight hlen hstatus⟩, rfl⟩

/-- A host step keeps the invariant: the host's own fields are not in it, and an MW writes only a byte that exists. -/
theorem hostStep_inv {s t : State} (h : s.Inv) (hstep : hostStep s = .next t) : t.Inv ∧ t.cfg = s.cfg := by
  rcases hostStep_cases hstep with ⟨g, rfl⟩ | ⟨off, v, g, arg, rest, rfl, -, -⟩ | ⟨a, b, g, ha, -, rfl⟩
  · exact ⟨h, rfl⟩
  · have hg : State.Inv { s with host := g } := h
    exact writeOffset_inv hg off v
  · obtain ⟨hcfg, hwf, hbelow, hcoh⟩ := h
    exact ⟨⟨hcfg, memory_write_wf hwf a b, memory_write_below hbelow ha b, hcoh⟩, rfl⟩

/-- The free bytes a reset draws (R121) all lie in MEM. -/
theorem freeCells_written_lt (s : State) :
    ∀ c ∈ freeCells s.draws s.db (runCommand s).writtenLen, c.1 < s.cfg.memBytes := by
  intro c hc
  obtain ⟨hlow, hhigh⟩ := freeCells_addr hc
  have := writtenLen_bound s (by omega)
  omega

/-- MEM after the reset input is canonical and inside MEM_BYTES, whatever a running command's destination takes. -/
theorem memAfterReset_wf_below {s : State} (hwf : s.mem.wf) (hbelow : s.mem.below s.cfg.memBytes) :
    s.memAfterReset.wf ∧ s.memAfterReset.below s.cfg.memBytes := by
  unfold State.memAfterReset
  split
  · exact ⟨memory_apply_wf hwf _, memory_apply_below hbelow (freeCells_written_lt s)⟩
  · exact ⟨hwf, hbelow⟩

/-- The reset values of the registers (R120) are coherent. -/
theorem coherent_reset : Regs.reset.coherent := by decide

/-- The reset input keeps the invariant. -/
theorem resetInput_inv {s : State} (h : s.Inv) : s.resetInput.Inv ∧ s.resetInput.cfg = s.cfg := by
  obtain ⟨hcfg, hwf, hbelow, -⟩ := h
  obtain ⟨hwf', hbelow'⟩ := memAfterReset_wf_below hwf hbelow
  exact ⟨⟨hcfg, hwf', hbelow', coherent_reset⟩, rfl⟩

/-- Settles O58: each kind of step keeps the invariant, and the turn taken off the schedule is not in it. -/
theorem stepKeepsTheInvariant : Obligations.StepKeepsTheInvariant := by
  intro s t h hstep
  have hturn : s.takeTurn.Inv := h
  rcases step_cases hstep with ⟨-, hhost⟩ | ⟨-, hbusy, rfl⟩ | ⟨-, -, rfl⟩ | ⟨-, rfl⟩
  · exact hostStep_inv (s := s.takeTurn) hturn hhost
  · exact complete_inv s.takeTurn hturn hbusy
  · exact ⟨hturn, rfl⟩
  · exact resetInput_inv (s := s.takeTurn) hturn

/-! ## MemRead, MemWrite and MemWriteBytes (R10) -/

/-- `MemRead(a, n)` is the sum of its bytes, each at its power of 256. -/
theorem readLE_eq_sum (m : Memory) (a n : Nat) :
    m.readLE a n = ∑ i ∈ Finset.range n, (m.read (a + i)).toNat * 2 ^ (8 * i) := by
  induction n generalizing a with
  | zero => rfl
  | succ n ih =>
    have hshift : ∀ i, (m.read (a + (i + 1))).toNat * 2 ^ (8 * (i + 1)) =
        256 * ((m.read (a + 1 + i)).toNat * 2 ^ (8 * i)) := by
      intro i
      rw [show a + (i + 1) = a + 1 + i by omega, Nat.mul_succ, Nat.pow_add]
      ring
    rw [Memory.readLE, ih, Finset.sum_range_succ', Finset.mul_sum, Finset.sum_congr rfl fun i _ => hshift i]
    simp [Nat.add_comm]

/-- `MemWriteBytes(a, bs)` leaves byte `i` of `bs` at `a + i`. -/
theorem read_apply_cellsAt {m : Memory} (hm : m.wf) (a : Nat) {bs : List Byte} {i : Nat} (hi : i < bs.length) :
    (m.apply (cellsAt a bs)).read (a + i) = bs[i] :=
  memory_read_apply_written hm (cellsAt_nodup a bs) (mem_cellsAt hi)

/-- `MemWriteBytes(a, bs)` changes no byte outside `(a, bs.length)`. -/
theorem read_apply_cellsAt_outside {m : Memory} (hm : m.wf) {a a' : Nat} {bs : List Byte}
    (h : a' < a ∨ a + bs.length ≤ a') : (m.apply (cellsAt a bs)).read a' = m.read a' :=
  memory_read_apply_other hm fun c hc => by
    have := cellsAt_addr hc
    omega

/-- `MemWrite(a, n, v)` leaves byte `i` of `v` at `a + i`. -/
theorem read_apply_leBytes {m : Memory} (hm : m.wf) (a : Nat) {n v i : Nat} (hi : i < n) :
    ((m.apply (cellsAt a (leBytes n v))).read (a + i)).toNat = v / 2 ^ (8 * i) % 256 := by
  rw [read_apply_cellsAt hm a (by rwa [leBytes_length]), leBytes_get hi]

/-- Settles O27: MemWrite is MemWriteBytes of the little-endian bytes, which read back as the value. -/
theorem memReadReturnsWhatMemWriteStored : Obligations.MemReadReturnsWhatMemWriteStored := by
  refine ⟨readLE_eq_sum, fun m a n v hm => ⟨?_, ?_, ?_⟩, fun m a bs hm => ⟨?_, ?_⟩⟩
  · exact readLE_of_bytes fun i hi => read_apply_leBytes hm a hi
  · exact fun i hi => read_apply_leBytes hm a hi
  · exact fun a' ha' => read_apply_cellsAt_outside hm (by rwa [leBytes_length])
  · exact fun i hi => read_apply_cellsAt hm a hi
  · exact fun a' ha' => read_apply_cellsAt_outside hm ha'

/-! ## The order of a command's writes -/

/-- Writes that name no address twice give equal memories in any order: a written byte reads as its one value, every
other byte as before. -/
theorem memory_apply_perm {m : Memory} (hm : m.wf) {ws ws' : List Host.Cell} (hnodup : (ws.map Prod.fst).Nodup)
    (hperm : ws'.Perm ws) : m.apply ws' = m.apply ws := by
  have hnodup' : (ws'.map Prod.fst).Nodup := (hperm.map Prod.fst).nodup_iff.2 hnodup
  refine memory_ext (memory_apply_wf hm ws') (memory_apply_wf hm ws) fun a => ?_
  by_cases hwritten : ∃ b, (a, b) ∈ ws
  · obtain ⟨b, hb⟩ := hwritten
    rw [memory_read_apply_written hm hnodup' (hperm.mem_iff.2 hb), memory_read_apply_written hm hnodup hb]
  · have hother : ∀ c ∈ ws, c.1 ≠ a := by
      rintro ⟨a', b⟩ hc rfl
      exact hwritten ⟨b, hc⟩
    rw [memory_read_apply_other hm fun c hc => hother c (hperm.mem_iff.1 hc), memory_read_apply_other hm hother]

/-- No command names an address twice in its writes. -/
theorem runInstr_writes_nodup {i : Instr} {s : State} {ws : List Host.Cell} {out : Option Out}
    (h : runInstr i s = .ok ws out) : (ws.map Prod.fst).Nodup := by
  rcases runInstr_cases i s with ⟨code, info, herr, -⟩ | ⟨-, hnop⟩ | ⟨ws', o, hok, hin, -⟩
  · rw [herr] at h
    cases h
  · rw [hnop] at h
    cases h
    exact List.nodup_nil
  · rw [hok] at h
    cases h
    exact hin.nodup

/-- Settles O34: a command's writes name no address twice, so their order cannot matter. -/
theorem writesGiveTheSameMemoryInAnyOrder : Obligations.WritesGiveTheSameMemoryInAnyOrder :=
  fun _ _ _ _ _ hm hrun hperm => memory_apply_perm hm (runInstr_writes_nodup hrun) hperm

end Sys2Proof.Machine
end

section
/-! PROOFS. The statements about the latches and the engine's state. -/

namespace Sys2Proof.Machine

/-! ## Nothing reads the latches while no command runs (R33, R120) -/

/-- How the steps from `s` and from `s` with latches `l` may differ when nothing reads the latches: either the two
answers `t` and `t'` are equal, or the step left the latches alone, no command runs, and that is all they differ in. -/
def SameButLatches (s : State) (l : Latches) (t t' : State) : Prop :=
  t' = t ∨ (t.regs.status.busy = false ∧ t.lat = s.lat ∧ t' = { t with lat := l })

/-- A register access that goes ahead in one state goes ahead in every state with the same parameters. -/
theorem atOffset_next_transfer {s s' t : State} {addr width : Nat} {act act' : Nat → Answer} {P : State → Prop}
    (hcfg : s'.cfg = s.cfg) (h : s.atOffset addr width act = .next t)
    (hact : ∀ off, act off = .next t → ∃ t', act' off = .next t' ∧ P t') :
    ∃ t', s'.atOffset addr width act' = .next t' ∧ P t' := by
  unfold State.atOffset at h ⊢
  rw [hcfg]
  cases hw : windowRefusal s.cfg addr width with
  | some r => rw [hw] at h; cases h
  | none => rw [hw] at h; exact hact _ h

/-- With BUSY = 0 no access to MEM is a race. -/
theorem races_of_idle {s : State} (hidle : s.regs.status.busy = false) (a : Nat) : s.races a = false := by
  simp [State.races, hidle]

/-- With BUSY = 0 an access to MEM goes ahead exactly when the byte exists. -/
theorem atMemByte_of_idle {s : State} (hidle : s.regs.status.busy = false) {a : Nat} (ha : a < s.cfg.memBytes)
    (act : Answer) : s.atMemByte a act = act := by
  simp [State.atMemByte, races_of_idle hidle, Nat.not_le.2 ha]

/-- A register write reads no latch, and writes them only by an acceptance, which writes all of them. -/
theorem writeReg_sameButLatches {s : State} (l : Latches) (hidle : s.regs.status.busy = false) (r : Reg) (v : Word) :
    SameButLatches s l (s.writeReg r v) (({ s with lat := l } : State).writeReg r v) := by
  cases r with
  | cmd =>
    cases hfatal : s.regs.status.fatal with
    | false =>
      left
      simp [State.writeReg, State.issue, Status.accepts, hidle, hfatal, State.accept]
    | true =>
      right
      simp [State.writeReg, State.issue, Status.accepts, hidle, hfatal, Status.overrun]
  | id | lanes | ctrl | status | errinfo | srcBase | srcLen | dstBase | dstCap | width | height | outWidth | outHeight
  | outLen => exact .inr ⟨hidle, rfl, rfl⟩

/-- `writeReg_sameButLatches` at an offset of the window. -/
theorem writeOffset_sameButLatches {s : State} (l : Latches) (hidle : s.regs.status.busy = false) (off : Nat)
    (v : Word) : SameButLatches s l (s.writeOffset off v) (({ s with lat := l } : State).writeOffset off v) := by
  unfold State.writeOffset
  cases Reg.at? off with
  | none => exact .inr ⟨hidle, rfl, rfl⟩
  | some r => exact writeReg_sameButLatches l hidle r v

/-- No operation of the host reads a latch while no command runs: only the race check would. -/
theorem hostStep_sameButLatches {s t : State} (l : Latches) (hidle : s.regs.status.busy = false)
    (h : hostStep s = .next t) :
    ∃ t', hostStep { s with lat := l } = .next t' ∧ SameButLatches s l t t' := by
  unfold hostStep at h ⊢
  cases hp : s.host.prog with
  | nil =>
    rw [hp] at h
    cases h
    exact ⟨_, rfl, .inr ⟨hidle, rfl, rfl⟩⟩
  | cons op rest =>
    rw [hp] at h
    cases op with
    | write addr width arg =>
      refine atOffset_next_transfer (s := s.withProg rest) rfl h fun off hact => ?_
      have hword : (({ s with lat := l } : State).withProg rest).host.word arg = (s.withProg rest).host.word arg := rfl
      rw [hword]
      cases hv : (s.withProg rest).host.word arg with
      | none => simp only [hv] at hact; cases hact
      | some v =>
        simp only [hv] at hact
        cases hact
        exact ⟨_, rfl, writeOffset_sameButLatches (s := s.withProg rest) l hidle off v⟩
    | read addr width x =>
      refine atOffset_next_transfer (s := s.withProg rest) rfl h fun off hact => ?_
      cases hact
      exact ⟨_, rfl, .inr ⟨hidle, rfl, rfl⟩⟩
    | poll addr mask v =>
      refine atOffset_next_transfer (s := s) rfl h fun off hact => ?_
      have hread : ({ s with lat := l } : State).readOffset off = s.readOffset off := rfl
      rw [hread]
      split at hact <;> cases hact
      · exact ⟨_, if_pos ‹_›, .inr ⟨hidle, rfl, rfl⟩⟩
      · exact ⟨_, if_neg ‹_›, .inr ⟨hidle, rfl, rfl⟩⟩
    | memWrite addr bs =>
      cases bs with
      | nil =>
        cases h
        exact ⟨_, rfl, .inr ⟨hidle, rfl, rfl⟩⟩
      | cons b bs =>
        obtain ⟨hlt, -, hact⟩ := atMemByte_next h
        cases hact
        exact ⟨_, atMemByte_of_idle (s := { s with lat := l }) hidle hlt _, .inr ⟨hidle, rfl, rfl⟩⟩
    | memRead addr n x got =>
      cases n with
      | zero =>
        cases h
        exact ⟨_, rfl, .inr ⟨hidle, rfl, rfl⟩⟩
      | succ k =>
        obtain ⟨hlt, -, hact⟩ := atMemByte_next h
        have hgo := atMemByte_of_idle (s := { s with lat := l }) hidle hlt
        split at hact <;> cases hact
        · exact ⟨_, (hgo _).trans (if_pos ‹_›), .inr ⟨hidle, rfl, rfl⟩⟩
        · exact ⟨_, (hgo _).trans (if_neg ‹_›), .inr ⟨hidle, rfl, rfl⟩⟩

/-- The reset input draws all the latches anew, and with no command running it abandons none, so it reads none. -/
theorem resetInput_of_otherLatches {s : State} (l : Latches) (hidle : s.regs.status.busy = false) :
    ({ s with lat := l } : State).resetInput = s.resetInput := by
  simp [State.resetInput, State.memAfterReset, hidle]

/-- Settles O57: with BUSY = 0 no agent reads a latch; acceptance and reset write all of them. -/
theorem latchesAreNotReadBeforeAcceptance : Obligations.LatchesAreNotReadBeforeAcceptance := by
  intro s t l hidle hstep
  have hturn : ({ s with lat := l } : State).turn = s.turn := rfl
  have hgo : step { s with lat := l } = agentStep s.turn { s.takeTurn with lat := l } := rfl
  rw [hgo]
  rcases step_cases hstep with ⟨hagent, hhost⟩ | ⟨-, hbusy, -⟩ | ⟨hagent, -, rfl⟩ | ⟨hagent, rfl⟩
  · rw [hagent]
    exact hostStep_sameButLatches (s := s.takeTurn) l hidle hhost
  · rw [hidle] at hbusy
    cases hbusy
  · rw [hagent]
    have hskip : engineStep { s.takeTurn with lat := l } = .next { s.takeTurn with lat := l } := by
      simp [engineStep, hidle]
    exact ⟨_, hskip, .inr ⟨hidle, rfl, rfl⟩⟩
  · rw [hagent]
    exact ⟨_, rfl, .inl (resetInput_of_otherLatches (s := s.takeTurn) l hidle)⟩

/-! ## HALTED (R109, R111) -/

/-- HALTED is FATAL = 1 with no command running (R32). -/
theorem engine_eq_halted {s : State} :
    s.engine = .halted ↔ s.regs.status.busy = false ∧ s.regs.status.fatal = true := by
  unfold State.engine Status.engine
  cases s.regs.status.busy <;> cases s.regs.status.fatal <;> decide

/-- The engine is IDLE with BUSY = 0 and FATAL = 0 (R32). -/
theorem engine_eq_idle {s : State} :
    s.engine = .idle ↔ s.regs.status.busy = false ∧ s.regs.status.fatal = false := by
  unfold State.engine Status.engine
  cases s.regs.status.busy <;> cases s.regs.status.fatal <;> decide

/-- In HALTED a register write is no acceptance, so it stays in HALTED and leaves the latches and the error record. -/
theorem writeOffset_of_halted {s : State} (h : s.engine = .halted) (off : Nat) (v : Word) :
    (s.writeOffset off v).engine = .halted ∧ (s.writeOffset off v).lat = s.lat ∧
    (s.writeOffset off v).regs.status.errcode = s.regs.status.errcode ∧
    (s.writeOffset off v).regs.errinfo = s.regs.errinfo ∧ (s.writeOffset off v).regs.outLen = s.regs.outLen := by
  obtain ⟨hidle, hfatal⟩ := engine_eq_halted.1 h
  rcases writeOffset_cases s off v with ⟨-, -, hnot, -⟩ | ⟨R, heq, hinfo, -, -, hlen, hstatus, -⟩
  · rw [hfatal] at hnot
    cases hnot
  · rw [heq]
    refine ⟨engine_eq_halted.2 ⟨?_, ?_⟩, rfl, ?_, hinfo, hlen⟩
    · rw [hstatus]; exact hidle
    · rw [hstatus]; exact hfatal
    · rw [hstatus]

/-- Settles O11: in HALTED the engine has nothing to perform and no register write is accepted. -/
theorem onlyResetLeavesHalted : Obligations.OnlyResetLeavesHalted := by
  intro s t hhalted hnotReset hstep
  rcases step_cases hstep with ⟨-, hhost⟩ | ⟨-, hbusy, -⟩ | ⟨-, -, rfl⟩ | ⟨hreset, -⟩
  · rcases hostStep_cases hhost with ⟨g, rfl⟩ | ⟨off, v, g, arg, rest, rfl, -, -⟩ | ⟨a, b, g, -, -, rfl⟩
    · exact ⟨hhalted, rfl, rfl, rfl, rfl⟩
    · exact writeOffset_of_halted (s := { s.takeTurn with host := g }) hhalted off v
    · exact ⟨hhalted, rfl, rfl, rfl, rfl⟩
  · rw [(engine_eq_halted.1 hhalted).1] at hbusy
    cases hbusy
  · exact ⟨hhalted, rfl, rfl, rfl, rfl⟩
  · exact absurd hreset hnotReset

/-! ## OVR (R22, R23) -/

/-- A completion leaves OVR as it is (R72, R108). -/
theorem complete_ovr (s : State) (r : Result) : (s.complete r).regs.status.ovr = s.regs.status.ovr := by
  cases r <;> rfl

/-- Settles O13: PERFORM leaves OVR alone, and of the host's steps only a register write can change it. -/
theorem ovrIsClearedOnlyByStatusWriteOrReset : Obligations.OvrIsClearedOnlyByStatusWriteOrReset := by
  intro s t hset hstep hcleared
  rcases step_cases hstep with ⟨hagent, hhost⟩ | ⟨-, -, rfl⟩ | ⟨-, -, rfl⟩ | ⟨hreset, -⟩
  · rcases hostStep_cases hhost with ⟨g, rfl⟩ | ⟨off, v, g, arg, rest, rfl, hprog, hword⟩ | ⟨a, b, g, -, -, rfl⟩
    · simp [hset] at hcleared
    · rcases writeOffset_cases { s.takeTurn with host := g } off v with
        ⟨-, -, -, heq⟩ | ⟨R, heq, -, -, -, -, -, hovr⟩
      · rw [heq] at hcleared
        simp [Status.accepted, hset] at hcleared
      · rw [heq] at hcleared
        obtain ⟨rfl, hbit⟩ := hovr hset hcleared
        exact .inr ⟨hagent, arg, rest, v, hprog, hbit, hword⟩
    · simp [hset] at hcleared
  · rw [complete_ovr, takeTurn_regs, hset] at hcleared
    cases hcleared
  · rw [takeTurn_regs, hset] at hcleared
    cases hcleared
  · exact .inl hreset

end Sys2Proof.Machine
end

section
/-! PROOFS. What a command's outcome depends on (R92), and the host beside a running command. -/

namespace Sys2Proof.Machine

/-! ## `Run` sees the latches, MEM_BYTES and the source bytes only -/

/-- ENCODE's writes are made of the dimensions and the source samples. -/
theorem encodeWrites_congr {s s' : State} (h : SameInputs .encode s s') : encodeWrites s' = encodeWrites s := by
  obtain ⟨-, -, hdb, -, hw, hh, -, -⟩ := operands_congr h.1
  unfold encodeWrites
  rw [hdb, hw, hh]
  congr 1
  refine flatMap_congr fun r hr => ?_
  have hr := List.mem_range.1 hr
  have hrow : encodeRow s' r = encodeRow s r := by
    unfold encodeRow
    rw [hw, hh]
    congr 1
    exact List.map_congr_left fun x hx => srcPix_congr (by decide) h (List.mem_range.1 hx) (by omega)
  rw [hrow]

/-- ENCODE's checks read the latched operands and MEM_BYTES. -/
theorem encodeChecks_congr {s s' : State} (hlat : s'.lat = s.lat) (hmem : s'.cfg.memBytes = s.cfg.memBytes) :
    encodeChecks s' = encodeChecks s := by
  obtain ⟨hsb, -, hdb, hdc, hw, hh, hlw, hlh⟩ := operands_congr hlat
  simp only [encodeChecks, validRegion, hmem, hsb, hdb, hdc, hw, hh, hlw, hlh]

/-- `Run` of ENCODE. -/
theorem runEncode_congr {s s' : State} (h : SameInputs .encode s s') : runEncode s' = runEncode s := by
  obtain ⟨-, -, -, -, hw, hh, -, -⟩ := operands_congr h.1
  unfold runEncode
  rw [encodeChecks_congr h.1 h.2.1, encodeWrites_congr h, hw, hh]

/-- A row of BLUR's interior pass reads source samples of the buffer only. -/
theorem blurInteriorRow_congr {s s' : State} (h : SameInputs .blur s s') {y : Nat} (hy : y + 2 < s.imgH) :
    blurInteriorRow s' y = blurInteriorRow s y := by
  obtain ⟨-, -, hdb, -, hw, -, -, -⟩ := operands_congr h.1
  unfold blurInteriorRow
  rw [hdb, hw]
  refine List.map_congr_left fun x hx => ?_
  have hx := List.mem_range'_1.1 hx
  have hgauss : gauss s'.srcPix x y = gauss s.srcPix x y :=
    gauss_congr fun i hi j hj => srcPix_congr (by decide) h (by omega) (by omega)
  rw [hgauss]

/-- A row of BLUR's border pass copies source samples of the buffer. -/
theorem blurBorderRow_congr {s s' : State} (h : SameInputs .blur s s') {y : Nat} (hy : y < s.imgH) :
    blurBorderRow s' y = blurBorderRow s y := by
  obtain ⟨-, -, hdb, -, hw, hh, -, -⟩ := operands_congr h.1
  unfold blurBorderRow
  rw [hdb, hw, hh]
  refine List.map_congr_left fun x hx => ?_
  have hx := List.mem_range.1 (List.mem_filter.1 hx).1
  rw [srcPix_congr (i := .blur) (by decide) h hx hy]

/-- `Run` of BLUR; the partition of the rows over the lanes does not show. -/
theorem runBlur_congr {s s' : State} (h : SameInputs .blur s s') : runBlur s' = runBlur s := by
  obtain ⟨-, -, -, -, hw, hh, -, -⟩ := operands_congr h.1
  have hinterior : parallelRows 2 (s.imgH - 2) s'.cfg.numLanes (blurInteriorRow s') =
      parallelRows 2 (s.imgH - 2) s.cfg.numLanes (blurInteriorRow s) := by
    rw [parallelRows_eq, parallelRows_eq]
    refine flatMap_congr fun y hy => blurInteriorRow_congr h ?_
    have := List.mem_range'_1.1 hy
    omega
  have hborder : (List.range s.imgH).flatMap (blurBorderRow s') = (List.range s.imgH).flatMap (blurBorderRow s) :=
    flatMap_congr fun y hy => blurBorderRow_congr h (List.mem_range.1 hy)
  unfold runBlur
  rw [transformChecks_congr h.1 h.2.1, hw, hh, hinterior, hborder]

/-- `Run` of DECODE: the header lies in the file once its length is checked, the pixel rows once `need` is. -/
theorem runDecode_congr {s s' : State} (h : SameInputs .decode s s') : runDecode s' = runDecode s := by
  obtain ⟨hlat, hmem, hread⟩ := h
  have hbyte : ∀ k < s.sl, s'.mem.read (s.sb + k) = s.mem.read (s.sb + k) :=
    fun k hk => hread _ (by omega) (Nat.add_lt_add_left hk _)
  refine decode_congr hlat hmem (fun h54 => ?_) (fun h2 => ?_) fun hneed x hx r hr k hk => ?_
  · refine header_congr hlat fun k hk => hbyte k ?_
    have hheader : ∀ j ∈ [0, 1, 10, 11, 12, 13, 18, 19, 20, 21, 22, 23, 24, 25, 28, 29, 30, 31, 32, 33], j < 54 := by
      decide
    exact Nat.lt_of_lt_of_le (hheader k hk) h54
  · have hsb := (operands_congr hlat).1
    change s'.mem.readLE (s'.sb + 0) 2 = s.mem.readLE (s.sb + 0) 2
    rw [hsb]
    exact readLE_congr fun k hk => hbyte k (by omega)
  · have hrow := le_stride s.header.wn 3
    have hrows : (r + 1) * stride s.header.wn 3 ≤ s.header.hn * stride s.header.wn 3 :=
      Nat.mul_le_mul_right _ hr
    rw [Nat.succ_mul, Nat.mul_comm s.header.hn] at hrows
    unfold Header.need at hneed
    have hin := hbyte (s.header.off + r * stride s.header.wn 3 + 3 * x + k) (by omega)
    simpa only [Nat.add_assoc] using hin

/-- `Run` of every command answers the same on states that agree on its inputs (R92). -/
theorem runInstr_congr {i : Instr} {s s' : State} (h : SameInputs i s s') : runInstr i s' = runInstr i s := by
  cases i with
  | nop => rfl
  | decode => exact runDecode_congr h
  | encode => exact runEncode_congr h
  | rotcw =>
    have hh : s'.imgH = s.imgH := by simp only [State.imgH, State.latH, h.1]
    change runRotate s' (cwIndex s'.imgH) = runRotate s (cwIndex s.imgH)
    rw [hh, runRotate_congr (by decide) h]
  | rotccw =>
    have hw : s'.imgW = s.imgW := by simp only [State.imgW, State.latW, h.1]
    have hh : s'.imgH = s.imgH := by simp only [State.imgH, State.latH, h.1]
    change runRotate s' (ccwIndex s'.imgW s'.imgH) = runRotate s (ccwIndex s.imgW s.imgH)
    rw [hw, hh, runRotate_congr (by decide) h]
  | blur => exact runBlur_congr h

/-- `Run` of the latched word, legal or not, answers the same on states with the same latches, MEM_BYTES and source
bytes. -/
theorem runCommand_congr {s s' : State} (hlat : s'.lat = s.lat) (hmem : s'.cfg.memBytes = s.cfg.memBytes)
    (hread : ∀ a, s.inSource a = true → s'.mem.read a = s.mem.read a) : runCommand s' = runCommand s := by
  unfold runCommand
  rw [hlat]
  cases hdec : decode s.lat.cmd with
  | illegal why => simp only [runIllegal, hlat]
  | instr i =>
    refine runInstr_congr ⟨hlat, hmem, fun a hlow hhigh => hread a ?_⟩
    have hlen : s.commandSourceLen = sourceLen i s := by simp only [State.commandSourceLen, hdec]
    simp only [State.inSource, inRegion, hlen, Bool.and_eq_true, decide_eq_true_eq]
    exact ⟨hlow, hhigh⟩

/-! ## The host beside a running command (R33, R69, R125, R128) -/

/-- While a command runs, a byte the host may write is none of its source region. -/
theorem inSource_of_no_race {s : State} (hbusy : s.regs.status.busy = true) {a : Nat} (h : s.races a = false) :
    s.inSource a = false := by
  simp only [State.races, hbusy, Bool.true_and, Bool.or_eq_false_iff] at h
  exact h.1

/-- A register write that is no acceptance changes nothing `Run` sees. -/
theorem runCommand_writeOffset_busy {s : State} (hbusy : s.regs.status.busy = true) (off : Nat) (v : Word) :
    runCommand (s.writeOffset off v) = runCommand s := by
  rcases writeOffset_cases s off v with ⟨-, hidle, -⟩ | ⟨R, heq, -⟩
  · rw [hbusy] at hidle
    cases hidle
  · rw [heq]
    rfl

/-- What `Run` will answer for the running command does not change by a host step. -/
theorem hostStep_busy_runCommand {s t : State} (hwf : s.mem.wf) (hbusy : s.regs.status.busy = true)
    (h : hostStep s = .next t) : runCommand t = runCommand s := by
  rcases hostStep_cases h with ⟨g, rfl⟩ | ⟨off, v, g, arg, rest, rfl, -, -⟩ | ⟨a, b, g, -, hfree, rfl⟩
  · rfl
  · exact runCommand_writeOffset_busy (s := { s with host := g }) hbusy off v
  · refine runCommand_congr rfl rfl fun x hx => ?_
    have hne : x ≠ a := by
      rintro rfl
      rw [inSource_of_no_race hbusy hfree] at hx
      cases hx
    rw [memory_read_write hwf, if_neg hne]

/-- Settles O12: a host step beside a running command accepts nothing and writes no source byte. -/
theorem hostStepsDoNotDisturbARunningCommand : Obligations.HostStepsDoNotDisturbARunningCommand := by
  intro s t hwf hbusy hturn hstep
  have hhost : hostStep s.takeTurn = .next t := by
    rwa [step, hturn] at hstep
  obtain ⟨hlat, -, -, hstatus, hinfo, hw, hh, hlen⟩ := hostStep_busy (s := s.takeTurn) hbusy hhost
  exact ⟨hlat, hstatus, hinfo, hw, hh, hlen, hostStep_busy_runCommand (s := s.takeTurn) hwf hbusy hhost⟩

end Sys2Proof.Machine
end

section
/-! PROOFS. The register window: what a read returns and what a write changes, offset by offset (R16 to R31), and the
host's WR and RD (R66). The kernel table (R35). -/

namespace Sys2Proof.Machine

/-! ## Reads and writes at the offset of a register -/

/-- A write at a register's offset is the write of that register. -/
theorem writeOffset_offset (s : State) (q : Reg) (v : Word) : s.writeOffset q.offset v = s.writeReg q v := by
  rw [State.writeOffset, reg_at_offset]

/-- A read at a register's offset is the read of that register. -/
theorem readOffset_offset (s : State) (q : Reg) : s.readOffset q.offset = s.readReg q := by
  rw [State.readOffset, reg_at_offset]

/-- No two registers stand at one offset. -/
theorem reg_offset_injective : Function.Injective Reg.offset := by
  intro q r h
  have hq := reg_at_offset q
  rw [h, reg_at_offset] at hq
  exact (Option.some.inj hq).symm

/-- A write at any offset changes registers and, at CMD's only, the latches: nothing else. -/
theorem writeOffset_frame (s : State) (off : Nat) (v : Word) :
    ∃ R L, s.writeOffset off v = { s with regs := R, lat := L } ∧ (off ≠ 0x0C → L = s.lat) := by
  rcases writeOffset_cases s off v with ⟨rfl, -, -, heq⟩ | ⟨R, heq, -⟩
  · exact ⟨_, _, heq, fun h => absurd rfl h⟩
  · exact ⟨R, s.lat, heq, fun _ => rfl⟩

/-- A write to a register other than CMD shows in no other register. -/
theorem readReg_writeReg_other (s : State) (v : Word) {q r : Reg} (hq : q ≠ .cmd) (hr : r ≠ q) :
    (s.writeReg q v).readReg r = s.readReg r := by
  cases q with
  | cmd => exact absurd rfl hq
  | id | lanes | errinfo | outWidth | outHeight | outLen => rfl
  | ctrl | status | srcBase | srcLen | dstBase | dstCap | width | height =>
    cases r <;> simp_all [State.writeReg, State.readReg]

/-- A write at the offset of a register other than CMD shows at no other offset. -/
theorem readOffset_writeOffset_other (s : State) (v : Word) {q : Reg} (hq : q ≠ .cmd) {off : Nat}
    (h : off ≠ q.offset) : (s.writeOffset q.offset v).readOffset off = s.readOffset off := by
  rw [writeOffset_offset]
  exact readOffset_congr (fun r hr => readReg_writeReg_other s v hq hr) h

/-! ## The parameter registers (R25 to R30) -/

/-- The parameter registers, in the order of their offsets. -/
def Reg.params : List Reg := [.srcBase, .srcLen, .dstBase, .dstCap, .width, .height]

/-- A parameter register holds all 32 bits of what is written to it. -/
theorem readReg_writeReg_param (s : State) (v : Word) {q : Reg} (hq : q ∈ Reg.params) :
    (s.writeReg q v).readReg q = v := by
  cases q with
  | srcBase | srcLen | dstBase | dstCap | width | height => rfl
  | id | lanes | ctrl | cmd | status | errinfo | outWidth | outHeight | outLen => exact absurd hq (by decide)

/-- Settles O16: the six offsets are those of `Reg.params`. -/
theorem parameterRegistersReadBackWhatIsWritten : Obligations.ParameterRegistersReadBackWhatIsWritten := by
  intro s v off hoff
  have hparam : off ∈ Reg.params.map Reg.offset := hoff
  obtain ⟨q, hq, rfl⟩ := List.mem_map.1 hparam
  have hcmd : q ≠ .cmd := by
    rintro rfl
    exact absurd hq (by decide)
  obtain ⟨R, L, heq, hlat⟩ := writeOffset_frame s q.offset v
  have hoffset : q.offset ≠ 0x0C := reg_offset_injective.ne hcmd
  refine ⟨?_, fun off' h => readOffset_writeOffset_other s v hcmd h, ?_, ?_, ?_⟩
  · rw [readOffset_offset, writeOffset_offset, readReg_writeReg_param s v hq]
  · rw [heq]; exact hlat hoffset
  · rw [heq]
  · rw [heq]

/-! ## The host's RD and WR (R66) -/

/-- Settles O21: RD binds its variable and takes itself off the program; the block is not touched. -/
theorem registerReadHasNoSideEffect : Obligations.RegisterReadHasNoSideEffect := by
  intro s off x rest hturn hoff halign hprog
  have hlookup (y : Nat) := lookup_bind (s.takeTurn.withProg rest).host x (.word (s.readOffset off)) y
  refine ⟨_, step_host_read hturn hprog hoff halign, rfl, rfl, rfl, rfl, rfl, rfl, ?_, fun y hy => ?_⟩
  · exact (hlookup x).trans (if_pos rfl)
  · exact (hlookup y).trans (if_neg hy)

/-- The word of a number, and of a variable that holds a word. -/
theorem hostWord_of_value {h : HostAgent} {arg : HostArg} {v : Word}
    (hv : arg = .lit v ∨ ∃ x, arg = .var x ∧ h.lookup x = some (.word v)) : h.word arg = some v := by
  rcases hv with rfl | ⟨x, rfl, hx⟩
  · rfl
  · simp [HostAgent.word, hx, HostVal.word?]

/-- A variable that is unbound or holds bytes has no word. -/
theorem hostWord_var_none {h : HostAgent} {x : Nat} (hx : ∀ w, h.lookup x ≠ some (.word w)) :
    h.word (.var x) = none := by
  change (h.lookup x).bind HostVal.word? = none
  cases hl : h.lookup x with
  | none => rfl
  | some val =>
    cases val with
    | word w => exact absurd hl (hx w)
    | bytes bs => rfl

/-- A register write in the window of a variable without a word is refused (log 7). -/
theorem step_host_write_unbound {s : State} {off : Nat} {arg : HostArg} {rest : List HostOp} (hturn : s.turn = .host)
    (hprog : s.host.prog = .write (s.cfg.regBase + off) 4 arg :: rest) (hoff : off < 256) (halign : off % 4 = 0)
    (hnone : s.host.word arg = none) : step s = .refused (.unboundHostVariable arg) := by
  have hprog' : s.takeTurn.host.prog = .write (s.cfg.regBase + off) 4 arg :: rest := hprog
  have hgo : windowRefusal (s.takeTurn.withProg rest).cfg (s.cfg.regBase + off) 4 = none :=
    windowRefusal_offset hoff halign
  have hnone' : (s.takeTurn.withProg rest).host.word arg = none := hnone
  simp only [step, hturn, agentStep, hostStep, hprog', State.hostWrite, State.atOffset, hgo, hnone']

/-- Settles O60: the WR step is `writeOffset` on the state with the turn and the operation taken off. -/
theorem hostRegisterWriteActsAtItsOffset : Obligations.HostRegisterWriteActsAtItsOffset := by
  intro s off arg rest hturn hoff halign hprog
  refine ⟨fun v hv => ?_, ?_⟩
  · obtain ⟨R, L, heq, hlat⟩ := writeOffset_frame (s.takeTurn.withProg rest) off v
    refine ⟨_, step_host_write hturn hprog hoff halign (hostWord_of_value hv), rfl, ?_⟩
    rw [heq]
    exact ⟨rfl, rfl, rfl, rfl, rfl, hlat⟩
  · rintro x rfl hx
    exact step_host_write_unbound hturn hprog hoff halign (hostWord_var_none hx)

/-! ## Power-up (R16, R122) -/

/-- The registers that read 0 after power-up: all but ID, LANES and CTRL. -/
def Reg.zeroAtPowerUp : List Reg :=
  [.cmd, .status, .errinfo, .srcBase, .srcLen, .dstBase, .dstCap, .width, .height, .outWidth, .outHeight, .outLen]

theorem readReg_powerUp_zero (c : Config) (m : Memory) {q : Reg} (hq : q ∈ Reg.zeroAtPowerUp) :
    (State.powerUp c m).readReg q = 0#32 := by
  cases q with
  | id | lanes | ctrl => exact absurd hq (by decide)
  | status => change Status.reset.toWord = 0#32; decide
  | cmd | errinfo | srcBase | srcLen | dstBase | dstCap | width | height | outWidth | outHeight | outLen => rfl

/-- Settles O14: NUM_LANES fits 32 bits by R6. -/
theorem registerMapAfterPowerUp : Obligations.RegisterMapAfterPowerUp := by
  intro c m
  refine ⟨rfl, fun hok => ?_, ?_, fun off hoff => ?_, engine_eq_idle.2 ⟨rfl, rfl⟩⟩
  · obtain ⟨-, ⟨-, hlanes⟩, -⟩ := hok
    have hfits : c.numLanes < 2 ^ 32 := by omega
    exact u32_toNat hfits
  · change ctrlWord true = 1#32
    decide
  · have hzero : off ∈ Reg.zeroAtPowerUp.map Reg.offset := hoff
    obtain ⟨q, hq, rfl⟩ := List.mem_map.1 hzero
    rw [readOffset_offset, readReg_powerUp_zero c m hq]

/-! ## Reserved offsets and read-only registers (R17) -/

/-- The registers a host write does nothing to. -/
def Reg.readOnly : List Reg := [.id, .lanes, .errinfo, .outWidth, .outHeight, .outLen]

theorem writeReg_readOnly (s : State) (v : Word) {q : Reg} (hq : q ∈ Reg.readOnly) : s.writeReg q v = s := by
  cases q with
  | id | lanes | errinfo | outWidth | outHeight | outLen => rfl
  | ctrl | cmd | status | srcBase | srcLen | dstBase | dstCap | width | height => exact absurd hq (by decide)

/-- Settles O15: no register stands at a reserved offset, and `writeReg` of a read-only one is the identity. -/
theorem reservedAndReadOnlyWritesAreIgnored : Obligations.ReservedAndReadOnlyWritesAreIgnored := by
  intro s v
  refine ⟨fun off hlow _ => ?_, fun off hoff => ?_, rfl, rfl⟩
  · have hnone := reg_at_reserved hlow
    simp only [State.readOffset, State.writeOffset, hnone, and_self]
  · have hreadOnly : off ∈ Reg.readOnly.map Reg.offset := hoff
    obtain ⟨q, hq, rfl⟩ := List.mem_map.1 hreadOnly
    rw [writeOffset_offset, writeReg_readOnly s v hq]

/-! ## CTRL (R20) -/

/-- CTRL as a number is its one bit. -/
theorem ctrlWord_toNat (b : Bool) : (ctrlWord b).toNat = b.toNat := by cases b <;> rfl

/-- Settles O17: a write of CTRL stores bit 0 of the word. -/
theorem ctrlHoldsOnlyTopdown : Obligations.CtrlHoldsOnlyTopdown := by
  intro s v
  refine ⟨?_, fun off' h => readOffset_writeOffset_other s v (q := .ctrl) (by decide) h, rfl, rfl⟩
  change (ctrlWord (v.getLsbD 0)).toNat = v.toNat % 2
  rw [ctrlWord_toNat, BitVec.getLsbD, Nat.testBit_zero]
  rcases Nat.mod_two_eq_zero_or_one v.toNat with h | h <;> simp [h]

/-! ## STATUS (R22, R23) -/

/-- Bit `i` of STATUS (R22): BUSY, DONE, ERR, FATAL, OVR, three zeros, and ERRCODE's bits above them. -/
def Status.bit (st : Status) : Nat → Bool
  | 0 => st.busy
  | 1 => st.done
  | 2 => st.err
  | 3 => st.fatal
  | 4 => st.ovr
  | 5 | 6 | 7 => false
  | k + 8 => st.errcode.code.getLsbD k

/-- The host reads `Status.bit` at every position. -/
theorem getLsbD_toWord (st : Status) (i : Nat) : st.toWord.getLsbD i = st.bit i := by
  unfold Status.toWord
  -- The width stays a sum of the parts' widths, as the rewriting needs it.
  simp only [BitVec.getLsbD_append, -Nat.reduceAdd]
  match i with
  | 0 | 1 | 2 | 3 | 4 | 5 | 6 | 7 => simp [Status.bit]
  | k + 8 =>
    simp only [Status.bit]
    have hcode : st.errcode.code.getLsbD k = true → k < 8 := BitVec.lt_of_getLsbD
    simpa using hcode

/-- ERRCODE has eight bits, so bits 31:16 of STATUS are zero. -/
theorem status_bit_high (st : Status) (i : Nat) : st.bit (16 + i) = false := by
  rw [show 16 + i = 8 + i + 8 by omega]
  exact BitVec.getLsbD_of_ge _ _ (by omega)

/-- Settles O18: each part of the word has the bits `Status.bit` gives it. -/
theorem statusBitsAreTheFields : Obligations.StatusBitsAreTheFields := by
  refine ⟨fun s => ?_, rfl, rfl, rfl, rfl, rfl, rfl, rfl, rfl, rfl⟩
  have hbit : ∀ i, (s.readOffset 0x10).getLsbD i = s.regs.status.bit i := getLsbD_toWord s.regs.status
  refine ⟨hbit 0, hbit 1, hbit 2, hbit 3, hbit 4, ?_, ?_, ?_⟩
  · refine BitVec.eq_of_getLsbD_eq fun i hi => ?_
    rw [BitVec.getLsbD_extractLsb', hbit]
    interval_cases i <;> rfl
  · refine BitVec.eq_of_getLsbD_eq fun i hi => ?_
    rw [BitVec.getLsbD_extractLsb', hbit, Nat.add_comm]
    simp [Status.bit, hi]
  · refine BitVec.eq_of_getLsbD_eq fun i hi => ?_
    rw [BitVec.getLsbD_extractLsb', hbit, status_bit_high]
    simp

/-- A write of `v` to STATUS clears bit 4 when `v` has it, and no other bit. -/
theorem status_written_bit (st : Status) (v : Word) (i : Nat) :
    (st.written v).bit i = (st.bit i && !(v.getLsbD i && decide (4 = i))) := by
  match i with
  | 4 => simp [Status.bit, Status.written]
  | 0 | 1 | 2 | 3 | 5 | 6 | 7 => simp [Status.bit, Status.written]
  | k + 8 => simp [Status.bit, Status.written]

/-- Settles O19: R23's word equation holds bit by bit. -/
theorem statusWriteClearsOnlyOvr : Obligations.StatusWriteClearsOnlyOvr := by
  intro s v
  refine ⟨?_, fun off' h => readOffset_writeOffset_other s v (q := .status) (by decide) h, rfl, rfl, rfl, rfl⟩
  change (s.regs.status.written v).toWord = s.regs.status.toWord &&& ~~~(v &&& BitVec.twoPow 32 4)
  refine BitVec.eq_of_getLsbD_eq fun i hi => ?_
  rw [getLsbD_toWord, status_written_bit, BitVec.getLsbD_and, BitVec.getLsbD_not, BitVec.getLsbD_and,
    BitVec.getLsbD_twoPow, getLsbD_toWord]
  simp [hi]

/-! ## The convolution kernel (R35) -/

/-- Settles O53: the sums and the symmetry of the 25 entries, by evaluation. -/
theorem kernelSumsAndSymmetry : Obligations.KernelSumsAndSymmetry := by
  refine ⟨rfl, rfl, kernel_sum, ?_, ?_⟩
  · decide
  · decide

end Sys2Proof.Machine
end

section
/-! PROOFS. The statements about the data memory: the host's accesses to it (R38, R39, R49, R66, R125), what a
successful command writes of it (R46, R50), and the invariant at power-up (R122). -/

namespace Sys2Proof.Machine

/-! ## Power-up (R120, R122) -/

/-- Power-up has the invariant: its registers are the reset values, its MEM is the content given. -/
theorem powerUp_inv {c : Config} {m : Memory} (hcfg : c.ok) (hwf : m.wf) (hbelow : m.below c.memBytes) :
    (State.powerUp c m).Inv :=
  ⟨hcfg, hwf, hbelow, coherent_reset⟩

/-- Settles O59: State.reset is the power-up with the reference parameters and no byte listed. -/
theorem powerUpHasTheInvariant : Obligations.PowerUpHasTheInvariant :=
  ⟨fun _ _ => powerUp_inv, powerUp_inv (by decide) (by decide) (by decide)⟩

/-! ## Host accesses to bytes that do not exist (R38) -/

/-- An access at or above MEM_BYTES faults before anything else is asked (log 8). -/
theorem atMemByte_of_memBytes_le {s : State} {a : Nat} (ha : s.cfg.memBytes ≤ a) (act : Answer) :
    s.atMemByte a act = .fault (.noSuchMemByte a) := if_pos ha

/-- Settles O26: both kinds of access go through `atMemByte`. -/
theorem accessAboveMemBytesFaults : Obligations.AccessAboveMemBytesFaults := by
  intro s a b bs n x got rest hturn ha hprog
  rcases hprog with hprog | hprog
  · exact (step_mem_write hturn hprog).trans (atMemByte_of_memBytes_le (s := s.takeTurn) ha _)
  · exact (step_mem_read hturn hprog).trans (atMemByte_of_memBytes_le (s := s.takeTurn) ha _)

/-! ## What a success says of the checks -/

/-- DECODE answers Ok only when none of its checks fails. -/
theorem decodeOk_of_run {s : State} {ws : List Host.Cell} {out : Option Out} (h : runDecode s = .ok ws out) :
    DecodeOk s := by
  cases hfail : firstFailure (decodeChecks s) with
  | none => exact (decodeChecks_none s).1 hfail
  | some c =>
    rw [runDecode_err hfail] at h
    cases h

/-- ENCODE answers Ok only when none of its checks fails. -/
theorem encodeOk_of_run {s : State} {ws : List Host.Cell} {out : Option Out} (h : runEncode s = .ok ws out) :
    EncodeOk s := by
  cases hfail : firstFailure (encodeChecks s) with
  | none => exact (encodeChecks_none s).1 hfail
  | some c =>
    rw [runEncode_err hfail] at h
    cases h

/-- A rotation answers Ok only when no transform check fails. -/
theorem transformOk_of_runRotate {s : State} {index : Nat → Nat → Nat} {ws : List Host.Cell} {out : Option Out}
    (h : runRotate s index = .ok ws out) : TransformOk s := by
  cases hfail : firstFailure (transformChecks s) with
  | none => exact (transformChecks_none s).1 hfail
  | some c =>
    rw [runRotate_err index hfail] at h
    cases h

/-- BLUR answers Ok only when no transform check fails. -/
theorem transformOk_of_runBlur {s : State} {ws : List Host.Cell} {out : Option Out} (h : runBlur s = .ok ws out) :
    TransformOk s := by
  cases hfail : firstFailure (transformChecks s) with
  | none => exact (transformChecks_none s).1 hfail
  | some c =>
    rw [runBlur_err hfail] at h
    cases h

/-! ## Non-positive dimensions (log 11) -/

/-- A command on a pixel buffer answers Ok only for a positive width and height (R87, R94). -/
theorem dimensions_pos_of_run {i : Instr} {s : State} {ws : List Host.Cell} {out : Option Out}
    (hi : i ∈ [.encode, .rotcw, .rotccw, .blur]) (h : runInstr i s = .ok ws out) : 0 < s.latW ∧ 0 < s.latH := by
  cases i with
  | nop => simp at hi
  | decode => simp at hi
  | encode =>
    obtain ⟨hw, hh, -⟩ := encodeOk_of_run h
    exact ⟨hw, hh⟩
  | rotcw | rotccw =>
    obtain ⟨hw, hh, -⟩ := transformOk_of_runRotate h
    exact ⟨hw, hh⟩
  | blur =>
    obtain ⟨hw, hh, -⟩ := transformOk_of_runBlur h
    exact ⟨hw, hh⟩

/-- The source of a command on a pixel buffer is the W·H-byte buffer (R125). -/
theorem sourceLen_of_buffer {i : Instr} (s : State) (hi : i ∈ [.encode, .rotcw, .rotccw, .blur]) :
    sourceLen i s = s.imgW * s.imgH := by
  cases i with
  | nop => simp at hi
  | decode => simp at hi
  | encode | rotcw | rotccw | blur => rfl

/-- A buffer with a non-positive dimension has no byte. -/
theorem imgArea_eq_zero {s : State} (h : s.latW ≤ 0 ∨ s.latH ≤ 0) : s.imgW * s.imgH = 0 := by
  rw [Nat.mul_eq_zero]
  exact h.imp Int.toNat_of_nonpos Int.toNat_of_nonpos

/-- A running command with a non-positive dimension owns no byte: it has no source byte and no success. -/
theorem freeByte_of_bad_dimensions {s : State} {i : Instr} {a : Nat} (hdec : decode s.lat.cmd = .instr i)
    (hi : i ∈ [.encode, .rotcw, .rotccw, .blur]) (hbad : s.latW ≤ 0 ∨ s.latH ≤ 0) (ha : a < s.cfg.memBytes) :
    FreeByte s a := by
  have hsource : s.commandSourceLen = 0 := by
    simp only [State.commandSourceLen, hdec, sourceLen_of_buffer s hi, imgArea_eq_zero hbad]
  refine ⟨ha, fun _ => ⟨by omega, fun ws o hrun => ?_⟩⟩
  simp only [runCommand, hdec] at hrun
  have hpos := dimensions_pos_of_run hi hrun
  omega

/-- A host access to a free byte has a next state. -/
theorem step_of_freeByte {s : State} {a n x : Nat} {b : Byte} {bs got : List Byte} {rest : List HostOp}
    (hturn : s.turn = .host) (hfree : FreeByte s a)
    (hprog : s.host.prog = .memWrite a (b :: bs) :: rest ∨ s.host.prog = .memRead a (n + 1) x got :: rest) :
    ∃ t, step s = .next t := by
  rcases hprog with hprog | hprog
  · exact ⟨_, (step_mem_write hturn hprog).trans (atMemByte_free hfree _)⟩
  · exact ⟨_, (step_mem_read hturn hprog).trans (atMemByte_free hfree _)⟩

/-- Settles O24: the byte is free, since the command has no source byte and cannot succeed. -/
theorem badDimensionsLeaveEveryByteFree : Obligations.BadDimensionsLeaveEveryByteFree := by
  intro s i a b bs n x got rest hturn _ hdec hi hbad ha hprog
  exact step_of_freeByte hturn (freeByte_of_bad_dimensions hdec hi hbad ha) hprog

/-! ## MW and MR on free bytes (R66) -/

/-- The variable bound is the value given. -/
theorem bindVar_lookup_self (s : State) (x : Nat) (v : HostVal) : (s.bindVar x v).host.lookup x = some v :=
  (lookup_bind s.host x v x).trans (if_pos rfl)

/-- Every other variable is as it was. -/
theorem bindVar_lookup_of_ne (s : State) (x : Nat) (v : HostVal) {y : Nat} (hy : y ≠ x) :
    (s.bindVar x v).host.lookup y = s.host.lookup y :=
  (lookup_bind s.host x v y).trans (if_neg hy)

/-- The last byte of an MR binds the variable. -/
theorem step_mem_read_last {s : State} {a x : Nat} {got : List Byte} {rest : List HostOp} (hturn : s.turn = .host)
    (hfree : FreeByte s a) (hprog : s.host.prog = .memRead a 1 x got :: rest) :
    step s = .next ((s.takeTurn.withProg rest).bindVar x (.bytes (got ++ [s.mem.read a]))) :=
  (step_mem_read hturn hprog).trans (atMemByte_free hfree _)

/-- An earlier byte of an MR leaves the rest to be read. -/
theorem step_mem_read_more {s : State} {a n x : Nat} {got : List Byte} {rest : List HostOp} (hturn : s.turn = .host)
    (hfree : FreeByte s a) (hprog : s.host.prog = .memRead a (n + 1 + 1) x got :: rest) :
    step s = .next (s.takeTurn.withProg (.memRead (a + 1) (n + 1) x (got ++ [s.mem.read a]) :: rest)) :=
  (step_mem_read hturn hprog).trans (atMemByte_free hfree _)

/-- An MW of no byte only leaves the program (log 7). -/
theorem step_mem_write_nil {s : State} {a : Nat} {rest : List HostOp} (hturn : s.turn = .host)
    (hprog : s.host.prog = .memWrite a [] :: rest) : step s = .next (s.takeTurn.withProg rest) := by
  simp only [step, hturn, agentStep, hostStep, takeTurn_host, hprog, State.hostMemWrite]

/-- An MR with no byte to come leaves the program and binds what was read (log 7). -/
theorem step_mem_read_none {s : State} {a x : Nat} {got : List Byte} {rest : List HostOp} (hturn : s.turn = .host)
    (hprog : s.host.prog = .memRead a 0 x got :: rest) :
    step s = .next ((s.takeTurn.withProg rest).bindVar x (.bytes got)) := by
  simp only [step, hturn, agentStep, hostStep, takeTurn_host, hprog, State.hostMemRead]

/-- The bytes of MEM from `a` up, as a whole MR returns them. -/
def Memory.bytesFrom (m : Memory) (a n : Nat) : List Byte := (List.range n).map fun k => m.read (a + k)

/-- The first byte and the bytes after it. -/
theorem bytesFrom_succ (m : Memory) (a n : Nat) : m.bytesFrom a (n + 1) = m.read a :: m.bytesFrom (a + 1) n := by
  have hshift : ∀ k, m.read (a + (k + 1)) = m.read (a + 1 + k) := fun k => by rw [Nat.add_right_comm, Nat.add_assoc]
  simp [Memory.bytesFrom, List.range_succ_eq_map, hshift]

/-- The turn is the first of the schedule. -/
theorem turn_of_sched {s : State} {t : Turn} {ts : List Turn} (h : s.sched = t :: ts) : s.turn = t := by
  rw [State.turn, h]

/-- A run of an MR over free bytes: the bytes still to come are added to those read, and all are bound at the end. -/
theorem run_mem_read (n : Nat) {s : State} {a x : Nat} {got : List Byte} {rest : List HostOp}
    (hsched : s.sched = List.replicate (n + 1) .host) (hfree : ∀ k ≤ n, FreeByte s (a + k))
    (hprog : s.host.prog = .memRead a (n + 1) x got :: rest) :
    core.run (n + 1) s =
      .next (({ s with sched := [] }.withProg rest).bindVar x (.bytes (got ++ s.mem.bytesFrom a (n + 1)))) := by
  have hfirst : FreeByte s a := hfree 0 (Nat.zero_le n)
  induction n generalizing s a got with
  | zero =>
    have hlast : s.takeTurn = { s with sched := [] } := by simp [State.takeTurn, hsched]
    rw [core_run_succ (step_mem_read_last (turn_of_sched hsched) hfirst hprog), hlast]
    rfl
  | succ n ih =>
    have hfree' : ∀ k ≤ n, FreeByte s (a + 1 + k) := fun k hk => by
      have := hfree (k + 1) (Nat.succ_le_succ hk)
      rwa [Nat.add_right_comm]
    have hsched' : s.takeTurn.sched = List.replicate (n + 1) .host := by rw [takeTurn_sched, hsched]; rfl
    have hbytes : got ++ s.mem.bytesFrom a (n + 1 + 1) =
        got ++ [s.mem.read a] ++ s.mem.bytesFrom (a + 1) (n + 1) := by rw [bytesFrom_succ, List.append_cons]
    have hrest := ih (s := s.takeTurn.withProg (.memRead (a + 1) (n + 1) x (got ++ [s.mem.read a]) :: rest))
      hsched' hfree' rfl (hfree' 0 (Nat.zero_le n))
    rw [core_run_succ (step_mem_read_more (turn_of_sched hsched) hfirst hprog), hbytes]
    exact hrest

/-- A host byte write to a free byte stores it and changes nothing else of the block. -/
theorem hostByteWrite_stores {s : State} {a : Nat} {b : Byte} {bs : List Byte} {rest : List HostOp} (hwf : s.mem.wf)
    (hturn : s.turn = .host) (hfree : FreeByte s a) (hprog : s.host.prog = .memWrite a (b :: bs) :: rest) :
    ∃ t, step s = .next t ∧ t.mem.read a = b ∧ (∀ a', a' ≠ a → t.mem.read a' = s.mem.read a') ∧
      t.regs = s.regs ∧ t.lat = s.lat ∧ t.cfg = s.cfg ∧ t.draws = s.draws ∧ t.host.vars = s.host.vars ∧
      t.host.prog = (if bs = [] then rest else .memWrite (a + 1) bs :: rest) := by
  have hread (a' : Nat) := memory_read_write hwf a b a'
  exact ⟨_, (step_mem_write hturn hprog).trans (atMemByte_free hfree _), (hread a).trans (if_pos rfl),
    fun a' ha' => (hread a').trans (if_neg ha'), rfl, rfl, rfl, rfl, rfl, rfl⟩

/-- Settles O25: a byte access to a free byte is not stopped, and a whole MR is an induction over its bytes. -/
theorem hostMemAccessesStoreAndReturnTheBytes : Obligations.HostMemAccessesStoreAndReturnTheBytes := by
  refine ⟨fun s a b bs rest => hostByteWrite_stores, fun s a n x got rest hturn hfree hprog => ?_,
    fun s a n x rest hsched hfree hprog => ?_,
    fun s a x rest hturn => ⟨step_mem_write_nil hturn, step_mem_read_none hturn⟩⟩
  · cases n with
    | zero =>
      exact ⟨_, step_mem_read_last hturn hfree hprog, rfl, rfl, rfl, rfl, rfl, fun h => absurd h (Nat.lt_irrefl 0),
        fun _ => ⟨rfl, bindVar_lookup_self _ x _, fun y hy => bindVar_lookup_of_ne _ x _ hy⟩⟩
    | succ n =>
      exact ⟨_, step_mem_read_more hturn hfree hprog, rfl, rfl, rfl, rfl, rfl, fun _ => ⟨rfl, rfl⟩,
        fun h => absurd h (Nat.succ_ne_zero n)⟩
  · exact ⟨_, run_mem_read n hsched hfree hprog, rfl, rfl, rfl, rfl, rfl, rfl, bindVar_lookup_self _ x _,
      fun y hy => bindVar_lookup_of_ne _ x _ hy⟩

/-! ## A successful command covers its written region (R46, R50) -/

/-- Every byte of the region `(db, len)` is written. -/
def Covers (ws : List Host.Cell) (db len : Nat) : Prop := ∀ k < len, ∃ b, (db + k, b) ∈ ws

/-- Each byte of DECODE's buffer is a pixel, which the row it lies in writes (R85). -/
theorem decode_covers (s : State) :
    Covers ((List.range s.header.hn).flatMap (decodeRow s)) s.db (s.header.wn * s.header.hn) := by
  intro k hk
  obtain ⟨hx, hy, hsplit⟩ := rowMajor_split hk
  have hin := decode_mem_writes hx hy
  rw [Nat.add_assoc, hsplit] at hin
  exact ⟨_, hin⟩

/-- A rotation whose index map reaches every index writes every byte (R97). -/
theorem rotate_covers {s : State} {index : Nat → Nat → Nat}
    (hsurj : ∀ k < s.imgW * s.imgH, ∃ x < s.imgW, ∃ y < s.imgH, index x y = k) :
    Covers ((List.range s.imgH).flatMap (rotateRow s index)) s.db (s.imgW * s.imgH) := by
  intro k hk
  obtain ⟨x, hx, y, hy, rfl⟩ := hsurj k hk
  exact ⟨_, rotate_mem_writes index hx hy⟩

/-- Each pixel of BLUR's buffer is written by one of its two passes (R101). -/
theorem blur_covers (s : State) : Covers (blurWrites s) s.db (s.imgW * s.imgH) := by
  intro k hk
  obtain ⟨hx, hy, hsplit⟩ := rowMajor_split hk
  have hin := blur_mem_writes hx hy
  rw [Nat.add_assoc, hsplit] at hin
  exact ⟨_, hin⟩

/-- Header, palette and rows of ENCODE's file abut (R86): each byte lies in one of them. -/
theorem encode_covers (s : State) : Covers (encodeWrites s) s.db (fileSize s.imgW s.imgH) := by
  intro k hk
  rcases Nat.lt_or_ge k 54 with hheader | hheader
  · exact ⟨_, encode_mem_header hheader⟩
  rcases Nat.lt_or_ge k 1078 with hpalette | hpalette
  · have hin := encode_mem_palette (s := s) (i := (k - 54) / 4) (j := (k - 54) % 4) (by omega) (by omega)
    rw [show s.db + 54 + 4 * ((k - 54) / 4) + (k - 54) % 4 = s.db + k by omega] at hin
    exact ⟨_, hin⟩
  · have hrow : k - 1078 < stride s.imgW 1 * s.imgH := by
      unfold fileSize imageSize at hk
      omega
    obtain ⟨hx, hr, hsplit⟩ := rowMajor_split hrow
    have hin := encode_mem_row hr hx
    rw [Nat.add_assoc, hsplit, show s.db + 1078 + (k - 1078) = s.db + k by omega] at hin
    exact ⟨_, hin⟩

/-- A successful command writes every byte of `(DST_BASE, OUT_LEN)`. -/
theorem runInstr_covers {i : Instr} {s : State} {ws : List Host.Cell} {o : Out} (h : runInstr i s = .ok ws (some o)) :
    Covers ws s.db o.len := by
  cases i with
  | nop => cases h
  | decode =>
    cases (runDecode_ok (decodeOk_of_run h)).symm.trans h
    exact decode_covers s
  | encode =>
    cases (runEncode_ok (encodeOk_of_run h)).symm.trans h
    exact encode_covers s
  | rotcw =>
    cases (runRotate_ok _ (transformOk_of_runRotate h)).symm.trans h
    exact rotate_covers fun _ hk => cwIndex_surj hk
  | rotccw =>
    cases (runRotate_ok _ (transformOk_of_runRotate h)).symm.trans h
    exact rotate_covers fun _ hk => ccwIndex_surj hk
  | blur =>
    cases (runBlur_ok (transformOk_of_runBlur h)).symm.trans h
    exact blur_covers s

/-- A successful command writes inside `(DST_BASE, OUT_LEN)` only, and no byte twice. -/
theorem runInstr_writesIn {i : Instr} {s : State} {ws : List Host.Cell} {o : Out}
    (h : runInstr i s = .ok ws (some o)) : WritesIn ws s.db o.len := by
  rcases runInstr_cases i s with ⟨code, info, herr, -⟩ | ⟨-, hnop⟩ | ⟨ws', o', hok, hin, -⟩
  · rw [herr] at h
    cases h
  · rw [hnop] at h
    cases h
  · rw [hok] at h
    cases h
    exact hin

/-- Settles O33: the writes stay in the region, name no byte of it twice, and cover it. -/
theorem everyDestinationByteIsWrittenOnce : Obligations.EveryDestinationByteIsWrittenOnce := by
  intro s i ws o hrun
  obtain ⟨hinside, hnodup⟩ := runInstr_writesIn hrun
  refine ⟨hnodup, fun a => ⟨fun ha => ?_, fun ⟨hlow, hhigh⟩ => ?_⟩⟩
  · obtain ⟨c, hc, rfl⟩ := List.mem_map.1 ha
    exact hinside c hc
  · obtain ⟨b, hb⟩ := runInstr_covers hrun (a - s.db) (by omega)
    rw [Nat.add_sub_cancel' hlow] at hb
    exact List.mem_map.2 ⟨_, hb, rfl⟩

end Sys2Proof.Machine
end

section
/-! PROOFS. The command word: the decoder answers by the whole word, and what the illegal words are (R55, R56, R58). -/

namespace Sys2Proof

/-- Every command's word decodes to it, by the round trip of each constructor. -/
theorem decode_encode (i : Instr) : decode (encode i) = .instr i := by
  have hroundTrip : Laws.RoundTrip.Statement i := by
    cases i with
    | nop => exact Laws.RoundTrip.nop
    | decode => exact Laws.RoundTrip.decode
    | encode => exact Laws.RoundTrip.encode
    | rotcw => exact Laws.RoundTrip.rotcw
    | rotccw => exact Laws.RoundTrip.rotccw
    | blur => exact Laws.RoundTrip.blur
  obtain ⟨-, -, hdecode⟩ := hroundTrip
  exact hdecode

/-- Everything the decoder can answer: the command whose word this is, or illegal on a word above the six. -/
theorem decode_cases (w : Word) :
    (∃ i, decode w = .instr i ∧ w = encode i) ∨ (decode w = .illegal (illegalReason w) ∧ 6 ≤ w.toNat) := by
  rw [decode_eq]
  split_ifs with hnop hdecode hencode hrotcw hrotccw hblur
  · exact .inl ⟨.nop, rfl, hnop⟩
  · exact .inl ⟨.decode, rfl, hdecode⟩
  · exact .inl ⟨.encode, rfl, hencode⟩
  · exact .inl ⟨.rotcw, rfl, hrotcw⟩
  · exact .inl ⟨.rotccw, rfl, hrotccw⟩
  · exact .inl ⟨.blur, rfl, hblur⟩
  · exact .inr ⟨rfl, by bv_omega⟩

/-- The six words are below 6. -/
theorem encode_toNat_lt (i : Instr) : (encode i).toNat < 6 := by cases i <;> decide

/-- Settles O1: the six words are those the encoder gives. -/
theorem sixWordsDecodeToTheirCommands : Obligations.SixWordsDecodeToTheirCommands :=
  ⟨decode_encode .nop, decode_encode .decode, decode_encode .encode, decode_encode .rotcw, decode_encode .rotccw,
    decode_encode .blur⟩

/-- Settles O2: by the decoder's two answers, a word that decodes to a command is that command's. -/
theorem decodeIsExactWholeWordMatch : Obligations.DecodeIsExactWholeWordMatch := by
  refine ⟨fun w i => ⟨fun h => ?_, ?_⟩, rfl, rfl, rfl, rfl, rfl, rfl⟩
  · rcases decode_cases w with ⟨j, hj, hw⟩ | ⟨hillegal, -⟩
    · rw [hj] at h
      cases h
      exact hw
    · rw [hillegal] at h
      cases h
  · rintro rfl
    exact decode_encode i

/-- Settles O3: OP at least 6 or RSVD not 0 says that the word as a number is at least 6. -/
theorem illegalWordsAreReservedOpOrNonzeroRsvd : Obligations.IllegalWordsAreReservedOpOrNonzeroRsvd := by
  intro w
  rcases decode_cases w with ⟨i, hi, rfl⟩ | ⟨hillegal, hlow⟩
  · have hlt := encode_toNat_lt i
    constructor
    · rintro ⟨why, hwhy⟩
      rw [hi] at hwhy
      cases hwhy
    · omega
  · exact ⟨fun _ => by omega, fun _ => ⟨_, hillegal⟩⟩

end Sys2Proof
end

section
/-! PROOFS. The host's POLL (R66) and its pseudo-operations CHAIN and RUN (R67), as steps of the machine. -/

namespace Sys2Proof.Machine

/-! ## POLL (R66) -/

/-- A POLL in the window reads once and comes off the program when its condition holds. -/
theorem step_host_poll {s : State} {off : Nat} {mask v : Word} {rest : List HostOp} (hturn : s.turn = .host)
    (hprog : s.host.prog = .poll (s.cfg.regBase + off) mask v :: rest) (hoff : off < 256) (halign : off % 4 = 0) :
    step s = .next (if s.readOffset off &&& mask = v then s.takeTurn.withProg rest else s.takeTurn) := by
  have hprog' : s.takeTurn.host.prog = .poll (s.cfg.regBase + off) mask v :: rest := hprog
  have hgo : windowRefusal s.takeTurn.cfg (s.cfg.regBase + off) 4 = none := windowRefusal_offset hoff halign
  have hread : s.takeTurn.readOffset off = s.readOffset off := rfl
  simp only [step, hturn, agentStep, hostStep, hprog', State.hostPoll, State.atOffset, hgo]
  rw [takeTurn_cfg, Nat.add_sub_cancel_left, hread, apply_ite Host.Outcome.next]

/-- Settles O22: the two outcomes of the one read. -/
theorem pollRepeatsUntilItsConditionHolds : Obligations.PollRepeatsUntilItsConditionHolds := by
  intro s off mask v rest hturn hoff halign hprog
  have hstep := step_host_poll hturn hprog hoff halign
  constructor
  · intro hholds
    rw [hstep, if_pos hholds]
    rfl
  · intro hfails
    rw [hstep, if_neg hfails]
    rfl

/-! ## WR, RD and POLL of a named register (R66) -/

/-- A named register stands at an aligned offset of the window (R16). -/
theorem reg_offset_window (r : Reg) : r.offset < 256 ∧ r.offset % 4 = 0 := by cases r <;> decide

/-- `WR <reg>, <v>` writes the register. -/
theorem step_opWR {s : State} {r : Reg} {arg : HostArg} {v : Word} {rest : List HostOp} (hturn : s.turn = .host)
    (hprog : s.host.prog = opWR s.cfg r arg :: rest) (hword : s.host.word arg = some v) :
    step s = .next ((s.takeTurn.withProg rest).writeReg r v) := by
  obtain ⟨hoff, halign⟩ := reg_offset_window r
  rw [step_host_write hturn hprog hoff halign hword, writeOffset_offset]

/-- `RD <reg> -> x` binds what the register reads as. -/
theorem step_opRD {s : State} {r : Reg} {x : Nat} {rest : List HostOp} (hturn : s.turn = .host)
    (hprog : s.host.prog = opRD s.cfg r x :: rest) :
    step s = .next ((s.takeTurn.withProg rest).bindVar x (.word (s.readReg r))) := by
  obtain ⟨hoff, halign⟩ := reg_offset_window r
  rw [step_host_read hturn hprog hoff halign, readOffset_offset]

/-- `POLL <reg>, <mask>, <v>` goes on when the register's value meets the condition. -/
theorem step_opPOLL_holds {s : State} {r : Reg} {mask v : Word} {rest : List HostOp} (hturn : s.turn = .host)
    (hprog : s.host.prog = opPOLL s.cfg r mask v :: rest) (hholds : s.readReg r &&& mask = v) :
    step s = .next (s.takeTurn.withProg rest) := by
  obtain ⟨hoff, halign⟩ := reg_offset_window r
  rw [step_host_poll hturn hprog hoff halign, readOffset_offset, if_pos hholds]

/-! ## CHAIN (R67, R129) -/

/-- A scheduled RD of a named register, as the first step of a run. -/
theorem run_opRD (k : Nat) {s : State} {r : Reg} {x : Nat} {rest : List HostOp} {ts : List Turn}
    (hsched : s.sched = .host :: ts) (hprog : s.host.prog = opRD s.cfg r x :: rest) :
    core.run (k + 1) s =
      core.run k ((({ s with sched := ts } : State).withProg rest).bindVar x (.word (s.readReg r))) := by
  rw [core_run_succ (step_opRD (turn_of_sched hsched) hprog), State.takeTurn, hsched, List.tail_cons]

/-- A scheduled WR of a named register, as the first step of a run. -/
theorem run_opWR (k : Nat) {s : State} {r : Reg} {arg : HostArg} {v : Word} {rest : List HostOp} {ts : List Turn}
    (hsched : s.sched = .host :: ts) (hprog : s.host.prog = opWR s.cfg r arg :: rest)
    (hword : s.host.word arg = some v) :
    core.run (k + 1) s = core.run k ((({ s with sched := ts } : State).withProg rest).writeReg r v) := by
  rw [core_run_succ (step_opWR (turn_of_sched hsched) hprog hword), State.takeTurn, hsched, List.tail_cons]

/-- Settles O28: two reads bind the variables, two writes store them. -/
theorem chainCopiesTheDimensions : Obligations.ChainCopiesTheDimensions := by
  intro s w h rest hne hsched hprog
  refine ⟨_, (run_opRD 3 hsched hprog).trans <| (run_opRD 2 rfl rfl).trans <|
    (run_opWR (v := s.regs.outWidth) 1 rfl rfl ?_).trans <| (run_opWR (v := s.regs.outHeight) 0 rfl rfl ?_), ?_⟩
  · refine hostWord_of_value (.inr ⟨w, rfl, ?_⟩)
    exact (bindVar_lookup_of_ne _ h _ hne).trans (bindVar_lookup_self _ w _)
  · exact hostWord_of_value (.inr ⟨h, rfl, bindVar_lookup_self _ h _⟩)
  · exact ⟨rfl, rfl, rfl, rfl⟩

/-! ## RUN (R67, R68, R70) -/

/-- CMD written while IDLE is an acceptance (R68). -/
theorem issue_of_idle {s : State} (hidle : s.regs.status.busy = false) (hfatal : s.regs.status.fatal = false)
    (v : Word) : s.issue v = s.accept v := by
  have haccepts : s.regs.status.accepts = true := by simp [Status.accepts, hidle, hfatal]
  exact if_pos haccepts

/-- With no turn scheduled the engine is next while it is running (log 5). -/
theorem turn_of_busy {s : State} (hsched : s.sched = []) (hbusy : s.regs.status.busy = true) : s.turn = .engine := by
  rw [State.turn, hsched]
  exact if_pos hbusy

/-- With no turn scheduled the host is next while no command runs (log 5). -/
theorem turn_of_idle {s : State} (hsched : s.sched = []) (hidle : s.regs.status.busy = false) : s.turn = .host := by
  simp [State.turn, hsched, hidle]

/-- A step takes no turn off an empty schedule. -/
theorem takeTurn_of_sched_nil {s : State} (hsched : s.sched = []) : s.takeTurn = s := by
  rw [State.takeTurn, hsched, List.tail_nil, ← hsched]

/-- A completion neither reads nor changes the host's program. -/
theorem complete_withProg (s : State) (p : List HostOp) (r : Result) :
    (s.withProg p).complete r = (s.complete r).withProg p := by
  cases r <;> rfl

/-- PERFORM of any command completes it, with or without an error, and keeps what a command may not touch. -/
theorem exec_completes (i : Instr) (s : State) :
    ∃ t, exec i s = .next t ∧ KeepsRest s t ∧ t.regs.status.busy = false ∧ t.regs.status.done = true :=
  ⟨_, exec_eq i s, complete_keepsRest s _, complete_busy s _⟩

/-- Bit 0 of STATUS is BUSY, so a poll of it sees 0 while no command runs (R22). -/
theorem status_toWord_and_one {st : Status} (hidle : st.busy = false) :
    st.toWord &&& 0x00000001#32 = 0x00000000#32 := by
  have hbit : st.toWord.getLsbD 0 = false := (getLsbD_toWord st 0).trans hidle
  rw [BitVec.and_one_eq_setWidth_ofBool_getLsbD, hbit]
  rfl

/-- `Run` of the accepted word of a legal command. -/
theorem runCommand_accept_encode (s : State) (i : Instr) :
    runCommand (s.accept (encode i)) = runInstr i (s.accept (encode i)) := by
  rw [runCommand, accept_lat, Regs.latched, decode_encode]

/-- The CMD write of RUN on an idle block: the command is accepted (R68). -/
theorem step_run_accept {s : State} {i : Instr} {rest : List HostOp} (hidle : s.regs.status.busy = false)
    (hfatal : s.regs.status.fatal = false) (hsched : s.sched = [])
    (hprog : s.host.prog = opWR s.cfg .cmd (.lit (encode i)) :: rest) :
    step s = .next ((s.accept (encode i)).withProg rest) := by
  rw [step_opWR (turn_of_idle hsched hidle) hprog rfl, takeTurn_of_sched_nil hsched]
  exact congrArg _ (issue_of_idle (s := s.withProg rest) hidle hfatal _)

/-- PERFORM of the accepted command, whatever program the host still has (R70). -/
theorem step_run_perform {s t : State} {i : Instr} (p : List HostOp) (hsched : s.sched = [])
    (hexec : exec i (s.accept (encode i)) = .next t) :
    step ((s.accept (encode i)).withProg p) = .next (t.withProg p) := by
  have haccepted : ((s.accept (encode i)).withProg p).sched = [] := hsched
  rw [exec_eq] at hexec
  cases hexec
  rw [step_engine_busy (turn_of_busy haccepted rfl) rfl, takeTurn_of_sched_nil haccepted, withProg_runCommand,
    runCommand_accept_encode, complete_withProg]

/-- The poll of RUN goes on when no command runs. -/
theorem step_run_poll {s : State} (rest : List HostOp) (hidle : s.regs.status.busy = false) (hsched : s.sched = []) :
    step (s.withProg (opPOLL s.cfg .status 0x00000001#32 0x00000000#32 :: rest)) = .next (s.withProg rest) := by
  have hsched' : (s.withProg (opPOLL s.cfg .status 0x00000001#32 0x00000000#32 :: rest)).sched = [] := hsched
  rw [step_opPOLL_holds (turn_of_idle hsched' hidle) rfl (status_toWord_and_one hidle), takeTurn_of_sched_nil hsched']
  rfl

/-- Settles O29: the CMD write, PERFORM and the poll, one step each. -/
theorem runEndsWithTheCommandCompleted : Obligations.RunEndsWithTheCommandCompleted := by
  intro s i rest hidle hfatal hsched hprog
  obtain ⟨t, hexec, hkeeps, hbusy, hdone⟩ := exec_completes i (s.accept (encode i))
  obtain ⟨hcfg, -, -, hsched', -⟩ := hkeeps
  have haccept := step_run_accept hidle hfatal hsched hprog
  have hperform := step_run_perform (opPOLL s.cfg .status 0x00000001#32 0x00000000#32 :: rest) hsched hexec
  have hpoll := step_run_poll rest hbusy (hsched'.trans hsched)
  rw [hcfg, accept_cfg] at hpoll
  refine ⟨t, t.withProg rest, hexec, ?_, rfl, rfl, rfl, rfl, hbusy, hdone⟩
  exact (core_run_succ haccept).trans <| (core_run_succ hperform).trans <| core_run_succ hpoll

end Sys2Proof.Machine
end

section
/-! PROOFS. Control: acceptance of a command word (R68, R69), PERFORM on the engine's turn (R70, R71, R73), illegal
words (R75) and completion without error (R72, R74). -/

namespace Sys2Proof.Machine

/-! ## `Run` of the latched word (R71, R75) -/

/-- `Run` of a latched word that is a command's. -/
theorem runCommand_of_instr {s : State} {i : Instr} (hdec : decode s.lat.cmd = .instr i) :
    runCommand s = runInstr i s := by
  rw [runCommand, hdec]

/-- `Run` of a latched word that is none of the six. -/
theorem runCommand_of_illegal {s : State} {why : IllegalWord} (hdec : decode s.lat.cmd = .illegal why) :
    runCommand s = .err .illegalCommand s.lat.cmd := by
  rw [runCommand, hdec, runIllegal]

/-! ## The engine's turn (R70, R119) -/

/-- Settles O4: PERFORM and exec are both the completion with what `Run` answers. -/
theorem engineTurnRunsTheDecodedCommand : Obligations.EngineTurnRunsTheDecodedCommand := by
  intro s i hturn hbusy hdec
  calc step s = .next (s.takeTurn.complete (runCommand s.takeTurn)) := step_engine_busy hturn hbusy
    _ = .next (s.takeTurn.complete (runInstr i s.takeTurn)) := by rw [runCommand_of_instr (s := s.takeTurn) hdec]
    _ = exec i s.takeTurn := (exec_eq i s.takeTurn).symm

/-- Settles O6: an engine that is not running performs nothing. -/
theorem idleEngineTurnChangesNothing : Obligations.IdleEngineTurnChangesNothing := by
  intro s hturn hidle
  have hidle' : ¬ s.takeTurn.regs.status.busy = true := by simp [hidle]
  rw [step, hturn]
  exact if_neg hidle'

/-- Settles O5: `Run` of an illegal word answers ILLEGAL_COMMAND with the word, whatever MEM holds. -/
theorem illegalWordEndsWithIllegalCommand : Obligations.IllegalWordEndsWithIllegalCommand := by
  intro s hturn hbusy hword
  obtain ⟨why, hdec⟩ := (illegalWordsAreReservedOpOrNonzeroRsvd s.lat.cmd).2 hword
  have hrun : runCommand s = .err .illegalCommand s.lat.cmd := runCommand_of_illegal hdec
  refine ⟨⟨s.takeTurn.completeErr .illegalCommand s.lat.cmd, ?_, completeErr_completedErr _ _ _⟩, fun m => ?_⟩
  · rw [step_engine_busy hturn hbusy, hrun, State.complete]
  · rw [hrun]
    exact runCommand_of_illegal (s := { s with mem := m }) hdec

/-! ## PERFORM after any delay (R73) -/

/-- A run over scheduled host turns leaves a running command running on its latches, with the schedule used up. -/
theorem run_host_turns_busy (k : Nat) {s t : State} (hbusy : s.regs.status.busy = true)
    (hsched : s.sched = List.replicate k .host) (hrun : core.run k s = .next t) :
    t.regs.status.busy = true ∧ t.sched = [] ∧ t.lat = s.lat := by
  induction k generalizing s with
  | zero =>
    cases hrun
    exact ⟨hbusy, hsched, rfl⟩
  | succ k ih =>
    obtain ⟨s', hstep, hrest⟩ := run_succ_next hrun
    have hhost : hostStep s.takeTurn = .next s' := by
      have hstep' : step s = .next s' := hstep
      rwa [step, turn_of_sched hsched] at hstep'
    obtain ⟨hlat, hsched', -, hstatus, -⟩ := hostStep_busy (s := s.takeTurn) hbusy hhost
    have hbusy' : s'.regs.status.busy = true := by
      rw [hstatus]
      exact hbusy
    have htail : s'.sched = List.replicate k .host := by
      rw [hsched', takeTurn_sched, hsched, List.replicate_succ, List.tail_cons]
    obtain ⟨hbusyEnd, hschedEnd, hlatEnd⟩ := ih hbusy' htail hrest
    exact ⟨hbusyEnd, hschedEnd, hlatEnd.trans hlat⟩

/-- Settles O8: the host turns leave the command running, and with none left the turn is the engine's. -/
theorem performComesAfterAnyHostDelay : Obligations.PerformComesAfterAnyHostDelay := by
  intro k s t hbusy hsched hrun
  obtain ⟨hbusy', hsched', hlat⟩ := run_host_turns_busy k hbusy hsched hrun
  obtain ⟨hended, hdone⟩ := complete_busy t.takeTurn (runCommand t)
  exact ⟨_, step_engine_busy (turn_of_busy hsched' hbusy') hbusy', hended, hdone, (complete_lat _ _).trans hlat⟩

/-! ## CMD writes (R68, R69) -/

/-- CMD written while RUNNING or HALTED only sets OVR (R69). -/
theorem issue_of_busy_or_fatal {s : State} (h : s.regs.status.busy = true ∨ s.regs.status.fatal = true) (v : Word) :
    s.issue v = { s with regs := { s.regs with status := s.regs.status.overrun } } := by
  have hrefuses : ¬ s.regs.status.accepts = true := by
    rcases h with h | h <;> simp [Status.accepts, h]
  exact if_neg hrefuses

/-- `WR CMD, v` issues the word. -/
theorem step_host_issue {s : State} {v : Word} {rest : List HostOp} (hturn : s.turn = .host)
    (hprog : s.host.prog = .write (s.cfg.regBase + 0x0C) 4 (.lit v) :: rest) :
    step s = .next ((s.takeTurn.withProg rest).issue v) :=
  step_opWR (r := .cmd) hturn hprog rfl

/-- Settles O9: the issued word is accepted. -/
theorem cmdWriteIsAcceptedWhenIdle : Obligations.CmdWriteIsAcceptedWhenIdle := by
  intro s v rest hturn hprog hidle hfatal
  refine ⟨(s.takeTurn.withProg rest).accept v, ?_, rfl, rfl, rfl, rfl, rfl, rfl, rfl, rfl, rfl, rfl, rfl, rfl, rfl,
    rfl⟩
  rw [step_host_issue hturn hprog, issue_of_idle (s := s.takeTurn.withProg rest) hidle hfatal]

/-- Settles O10: the issued word only sets OVR. -/
theorem cmdWriteIsIgnoredWhenBusyOrHalted : Obligations.CmdWriteIsIgnoredWhenBusyOrHalted := by
  intro s v rest hturn hprog hrefuses
  rw [step_host_issue hturn hprog, issue_of_busy_or_fatal (s := s.takeTurn.withProg rest) hrefuses]
  rfl

/-! ## Completion without error (R72, R74) -/

/-- PERFORM of NOP completes with no write and no result (R74). -/
theorem exec_nop (s : State) : exec .nop s = .next (s.completeOk [] none) := exec_eq .nop s

/-- A completion without error leaves an engine that is not fatal IDLE. -/
theorem engine_of_completedOk {s t : State} {w h len : Nat} (hfatal : s.regs.status.fatal = false)
    (hdone : CompletedOk s t w h len) : t.engine = .idle := by
  obtain ⟨-, -, -, -, hidle, -, -, hkeep, -, -⟩ := hdone
  exact engine_eq_idle.2 ⟨hidle, hkeep.trans hfatal⟩

/-- A completion without results leaves OUT_* as they are. -/
theorem completeOk_none_completedOk (s : State) (ws : List Host.Cell) :
    CompletedOk s (s.completeOk ws none) s.regs.outWidth.toNat s.regs.outHeight.toNat s.regs.outLen.toNat :=
  ⟨complete_keepsRest s (.ok ws none), rfl, rfl, rfl, rfl, rfl, rfl, rfl, rfl, rfl⟩

/-- Settles O30: no result is cut (`runInstr_out_lt`), and NOP has none. -/
theorem successfulCompletionSetsResults : Obligations.SuccessfulCompletionSetsResults := by
  refine ⟨fun s i ws o hfatal hrun => ?_, fun s hfatal => ?_⟩
  · obtain ⟨t, hexec, hdone, hmem⟩ := exec_of_run_ok hrun
    exact ⟨t, hexec, hdone, hmem, engine_of_completedOk hfatal hdone⟩
  · have hdone := completeOk_none_completedOk s []
    exact ⟨_, exec_nop s, hdone, engine_of_completedOk hfatal hdone⟩

/-- Settles O36: NOP's completion changes BUSY and DONE only; acceptance has cleared the error record before it. -/
theorem nopCompletesAndChangesOnlyStatus : Obligations.NopCompletesAndChangesOnlyStatus :=
  ⟨exec_nop, fun s => ⟨_, exec_nop (s.accept 0x00000000#32), rfl, rfl⟩⟩

end Sys2Proof.Machine
end

section
/-! PROOFS. The BMP codec: the row stride and the luma weights (R78 to R81), the checks of DECODE and ENCODE in order
(R85, R87, R106), the pixels DECODE leaves (R84), and the file ENCODE leaves (R63, R64, R86). -/

namespace Sys2Proof.Machine

/-! ## Stride and luma (R78 to R81) -/

/-- The padding a row needs depends on its length modulo 4 only (R79). -/
theorem stride_sub_row (w n : Nat) : stride w n - w * n = (4 - w * n % 4) % 4 := by
  unfold stride
  omega

/-- The paddings of R79 by the remainder of the width, for 3-byte and for 1-byte pixels. -/
theorem padding_of_remainder : ∀ rem < 4,
    (4 - rem * 3 % 4) % 4 = [0, 1, 2, 3].getD rem 0 ∧ (4 - rem * 1 % 4) % 4 = [0, 3, 2, 1].getD rem 0 := by
  decide

/-- Settles O51: `stride` rounds up to a multiple of 4, and `W mod 4` gives the remainder of a row's length. -/
theorem rowStrideLaw : Obligations.RowStrideLaw := by
  intro W N _
  refine ⟨Nat.mul_mod_right 4 _, le_stride W N, by unfold stride; omega, stride_sub_row W N, ?_⟩
  rw [stride_sub_row, stride_sub_row, Nat.mul_mod W 3, Nat.mul_mod W 1]
  exact padding_of_remainder (W % 4) (Nat.mod_lt W (by decide))

/-- Settles O52: luma is its quotient (`luma_toNat`), the weights sum to 100, and a quotient is monotone. -/
theorem lumaIsExactMonotoneAndKeepsGray : Obligations.LumaIsExactMonotoneAndKeepsGray := by
  refine ⟨luma_toNat, fun r g b => ?_, fun v => BitVec.eq_of_toNat_eq ?_, fun r r' g b hle => ?_,
    fun r g g' b hle => ?_, fun r g b b' hle => ?_⟩
  · have hr := r.isLt
    have hg := g.isLt
    have hb := b.isLt
    omega
  · rw [luma_toNat]
    omega
  all_goals
    rw [luma_toNat, luma_toNat]
    exact Nat.div_le_div_right (by omega)

/-! ## The checks in order (R11, R85, R87, R106) -/

/-- The checks `cs` report to `E` in order: a check that fails reports its code and detail when every check before it
holds. -/
def ReportsInOrder (E : ErrCode → Word → Prop) : List Check → Prop
  | [] => True
  | c :: cs => (¬ c.fails = false → E c.code c.info) ∧ (c.fails = false → ReportsInOrder E cs)

/-- What holds of the first failure of a list of checks is reported in order. -/
theorem reportsInOrder_of_firstFailure {E : ErrCode → Word → Prop} {cs : List Check}
    (h : ∀ c, firstFailure cs = some c → E c.code c.info) : ReportsInOrder E cs := by
  induction cs with
  | nil => trivial
  | cons c cs ih =>
    exact ⟨fun hfails => h c (firstFailure_cons_fails (Bool.eq_true_of_not_eq_false hfails)), fun hholds =>
      ih fun d hd => h d ((firstFailure_cons_holds hholds).trans hd)⟩

/-- PERFORM of DECODE ends with the error of its first failing check (R85). -/
theorem decode_reportsInOrder (s : State) : ReportsInOrder (ErrorsWith .decode s) (decodeChecks s) :=
  reportsInOrder_of_firstFailure fun _ hfirst => errorsWith_of_run (runDecode_err hfirst)

/-- PERFORM of ENCODE ends with the error of its first failing check (R87). -/
theorem encode_reportsInOrder (s : State) : ReportsInOrder (ErrorsWith .encode s) (encodeChecks s) :=
  reportsInOrder_of_firstFailure fun _ hfirst => errorsWith_of_run (runEncode_err hfirst)

/-- Settles O37: the eleven checks of R85 are reported in order; both regions of the last one have a byte. -/
theorem decodeReportsItsFirstFailingCheck : Obligations.DecodeReportsItsFirstFailingCheck := by
  intro s
  have hreports := decode_reportsInOrder s
  simp only [decodeChecks, ReportsInOrder, validRegion, Bool.not_eq_false', decide_eq_true_eq,
    decide_eq_false_iff_not, Bool.or_eq_false_iff, bne_eq_false_iff_eq, beq_eq_false_iff_ne, Nat.not_lt, Nat.not_le,
    Int.not_le, imp_and, implies_true, and_true] at hreports
  simp only [Nat.not_le]
  obtain ⟨hsrc, hdst, hsig, hlen, hbpp, hcomp, hwidth, hheight, hneed, hcap, hoverlap⟩ := hreports
  refine ⟨hsrc, hdst, hsig, hlen, hbpp, hcomp, hwidth, hheight, hneed, hcap,
    fun h1 h2 h3 h4 h5 h6 h7 h8 h9 h10 hmeet => hoverlap h1 h2 h3 h4 h5 h6 h7 h8 h9 h10 ?_⟩
  have hbuffer : 0 < s.header.wn * s.header.hn := Nat.mul_pos (header_wn_pos h7) (header_hn_pos h8.1)
  rw [Bool.not_eq_false, overlaps_true (by omega) hbuffer]
  exact hmeet

/-- Settles O40: the six checks of R87 are reported in order; both regions of the last one have a byte. -/
theorem encodeReportsItsFirstFailingCheck : Obligations.EncodeReportsItsFirstFailingCheck := by
  intro s
  have hreports := encode_reportsInOrder s
  simp only [encodeChecks, ReportsInOrder, validRegion, Bool.not_eq_false', decide_eq_true_eq,
    decide_eq_false_iff_not, Nat.not_lt, Nat.not_le, Int.not_le, Int.not_lt, imp_and, implies_true, and_true]
    at hreports
  simp only [Nat.not_le]
  obtain ⟨hwidth, hheight, hsrc, hdst, hcap, hoverlap⟩ := hreports
  refine ⟨hwidth, hheight, hsrc, hdst, hcap, fun h1 h2 h3 h4 h5 hmeet => hoverlap h1 h2 h3 h4 h5 ?_⟩
  rw [Bool.not_eq_false]
  exact (overlaps_true (imgArea_pos h1 h2) (by unfold fileSize; omega)).2 hmeet

/-! ## DECODE (R82 to R85) -/

/-- Settles O39: the header is made of the six fields alone, and the pixels of its B, G, R bytes alone. -/
theorem ignoredFileBytesNeverMatter : Obligations.IgnoredFileBytesNeverMatter := by
  intro s m' hfields hpixels
  have hheader : ({ s with mem := m' } : State).header = s.header := header_congr rfl hfields
  exact decode_congr rfl rfl (fun _ => hheader) (fun _ => congrArg Header.sig hheader) fun _ => hpixels

/-- Settles O38: each pixel is written once, as the luma of its stored bytes, and nothing beside the buffer is. -/
theorem decodeCompletesWithLumaSamples : Obligations.DecodeCompletesWithLumaSamples := by
  intro s hwf hok
  obtain ⟨t, hexec, hdone, hmem⟩ := exec_of_run_ok (i := .decode) (runDecode_ok hok)
  obtain ⟨hwritten, hother⟩ := (decode_writesIn s).read_apply hwf
  rw [← hmem] at hwritten hother
  refine ⟨t, hexec, hdone, fun x hx y hy => ?_, hother⟩
  rw [hwritten _ _ (decode_mem_writes hx hy)]
  exact luma_toNat _ _ _

/-! ## ENCODE (R63, R64, R86, R87) -/

/-- The bytes of a palette entry: the index three times, then 0 (R64). -/
theorem paletteEntry_getElem {i k : Nat} (hi : i < 256) (hk : k < (paletteEntry i).length) :
    ((paletteEntry i)[k]).toNat = if k < 3 then i else 0 := by
  match k, hk with
  | 0, _ | 1, _ | 2, _ => exact Nat.mod_eq_of_lt hi
  | 3, _ => rfl

/-- The bytes of a stored row: the samples of its image row, then zeros (R63). -/
theorem encodeRow_getElem {s : State} {r x : Nat} (hx : x < (encodeRow s r).length) :
    (encodeRow s r)[x] = if x < s.imgW then s.srcPix x (s.imgH - 1 - r) else 0x00#8 := by
  simp [encodeRow, List.getElem_append]

/-- Settles O41: header, palette and rows are written once each; no header field is cut, since the file fits
DST_CAP. -/
theorem encodeCompletesWithFileImage : Obligations.EncodeCompletesWithFileImage := by
  intro s hwf hok W H S fsz
  obtain ⟨t, hexec, hdone, hmem⟩ := exec_of_run_ok (i := .encode) (runEncode_ok hok)
  have hheader := encode_fieldsAt hwf
  obtain ⟨hwritten, hother⟩ := (encode_writesIn s).read_apply hwf
  rw [← hmem] at hheader hwritten hother
  refine ⟨t, hexec, hdone, ?_, fun i hi => ⟨fun k hk => ?_, ?_⟩,
    fun r hr => ⟨fun x hx => ?_, fun x hx hS => ?_⟩, hother⟩
  · obtain ⟨-, -, -, -, hfits, -⟩ := hok
    have hcap : s.dc < 2 ^ 32 := s.lat.dstCap.isLt
    have hW := imgW_lt s
    have hH := imgH_lt s
    simpa (disch := omega) only [FieldsAt, headerFields, fileSize, imageSize, Nat.mod_eq_of_lt, and_true,
      Nat.add_assoc, Nat.reduceAdd, Nat.reducePow] using hheader
  · rw [hwritten _ _ (encode_mem_palette hi (Nat.lt_succ_of_lt hk)), paletteEntry_getElem hi, if_pos hk]
  · rw [hwritten _ _ (encode_mem_palette (j := 3) hi (by decide)), paletteEntry_getElem hi, if_neg (by decide)]
  · have hS : x < S := Nat.lt_of_lt_of_le hx (by simpa using le_stride W 1)
    rw [hwritten _ _ (encode_mem_row hr hS), encodeRow_getElem, if_pos hx]
    rfl
  · rw [hwritten _ _ (encode_mem_row hr hS), encodeRow_getElem, if_neg (Nat.not_lt.2 hx)]
    rfl

/-- Settles O42: the file's regions and signature pass DECODE's first four checks, its depth field is 8. -/
theorem decodeRejectsWhatEncodeWrote : Obligations.DecodeRejectsWhatEncodeWrote := by
  intro s t u hwf hok hexec hmem hcfg hsrc hlen hdst
  obtain ⟨t', hexec', ⟨-, -, -, houtLen, -⟩, ⟨hsig, -, -, -, -, -, -, -, -, hbpp, -⟩, -⟩ :=
    encodeCompletesWithFileImage s hwf hok
  obtain rfl : t = t' := Host.Outcome.next.inj (hexec.symm.trans hexec')
  obtain ⟨-, -, -, hregion, hfits, -⟩ := hok
  have hsb : u.sb = s.db := congrArg BitVec.toNat hsrc
  have hsl : u.sl = 1078 + stride s.imgW 1 * s.imgH := (congrArg BitVec.toNat hlen).trans houtLen
  obtain ⟨-, -, -, -, hreport, -⟩ := decodeReportsItsFirstFailingCheck u
  rw [hsb, hsl, hcfg, hmem, hbpp] at hreport
  exact hreport (by omega) (hcfg ▸ hdst) ⟨by omega, hsig⟩ (by omega) (by decide)

end Sys2Proof.Machine
end

section
/-! PROOFS. The lane partition's blocks (R89), and the outcome of a command, which no lane shows in (R92). -/

namespace Sys2Proof.Machine

/-! ## The blocks of a partition (R88, R89) -/

/-- Blocks of size `bs` from `s` up abut, and a last block that starts where they end abuts them, wherever it ends. -/
theorem blocks_isChain (s bs k e : Nat) :
    ((List.range k).map (fun i => (s + i * bs, s + (i + 1) * bs)) ++ [(s + k * bs, e)]).IsChain
      (fun p q => p.2 = q.1) := by
  induction k generalizing e with
  | zero => exact .singleton _
  | succ k ih =>
    rw [List.range_succ, List.map_append, List.append_assoc]
    exact List.isChain_append_cons_cons.2 ⟨ih _, rfl, .singleton _⟩

/-- Each block of a partition ends where the next begins. -/
theorem partition_isChain (s e t0 : Nat) : (partition s e t0).IsChain (fun p q => p.2 = q.1) := by
  unfold partition
  split
  · exact .nil
  · exact blocks_isChain ..

/-- A list put together from parts that repeats no entry has each entry in exactly one part. -/
theorem mem_flatMap_iff_existsUnique {α β : Type} {l : List α} {f : α → List β} (hnodup : (l.flatMap f).Nodup)
    {b : β} : b ∈ l.flatMap f ↔ ∃! a, a ∈ l ∧ b ∈ f a := by
  obtain ⟨-, hdisjoint⟩ := List.nodup_flatMap.1 hnodup
  have hsymm : Std.Symm (Function.onFun List.Disjoint f) := ⟨fun _ _ h => h.symm⟩
  constructor
  · intro hb
    obtain ⟨a, ha, hba⟩ := List.mem_flatMap.1 hb
    refine ⟨a, ⟨ha, hba⟩, fun a' ⟨ha', hba'⟩ => ?_⟩
    by_contra hne
    exact hdisjoint.forall ha' ha hne hba' hba
  · rintro ⟨a, hin, -⟩
    exact List.mem_flatMap.2 ⟨a, hin⟩

/-- A row lies in the range exactly when one block of the partition, and no other, holds it: the blocks' rows are the
range's, which repeats none. -/
theorem partition_existsUnique {s e t0 y : Nat} :
    (s ≤ y ∧ y < e) ↔ ∃! blk, blk ∈ partition s e t0 ∧ blk.1 ≤ y ∧ y < blk.2 := by
  have hrows := partition_rows s e t0
  have hnodup : ((partition s e t0).flatMap blockRows).Nodup := hrows ▸ List.nodup_range'
  have hunique := mem_flatMap_iff_existsUnique hnodup (b := y)
  simp only [mem_blockRows] at hunique
  rw [← hunique, hrows, List.mem_range'_1]
  omega

/-- Settles O54: the blocks' rows in order are the range (`partition_rows`), so no two blocks share one. -/
theorem partitionGivesEveryRowOnce : Obligations.PartitionGivesEveryRowOnce :=
  fun s e t0 hrange _ =>
    ⟨partition_nonempty hrange, partition_isChain s e t0, fun _ => partition_existsUnique, partition_rows s e t0⟩

/-! ## The outcome of a command (R92) -/

/-- Settles O35: command by command (`runInstr_congr`), its checks and writes read nothing else, and the parallel phase
is a run over the rows whatever the lanes (`parallelRows_eq`). -/
theorem outcomeDependsOnlyOnLatchesAndSourceBytes : Obligations.OutcomeDependsOnlyOnLatchesAndSourceBytes :=
  fun _ _ _ hsame => runInstr_congr hsame

end Sys2Proof.Machine
end

section
/-! PROOFS. The rotations and BLUR: the transform checks in order (R94, R106), the turn each rotation leaves (R95, R96),
the two index maps (R97), and the rotation laws on the machine (R98). -/

namespace Sys2Proof.Machine

/-! ## The transform checks in order (R94, R106) -/

/-- The three transforms answer alike when a check fails. -/
theorem runInstr_transform_err {i : Instr} {s : State} {c : Check} (hi : i ∈ [.rotcw, .rotccw, .blur])
    (hfirst : firstFailure (transformChecks s) = some c) : runInstr i s = .err c.code c.info := by
  simp only [List.mem_cons, List.not_mem_nil, or_false] at hi
  rcases hi with rfl | rfl | rfl
  · exact runRotate_err _ hfirst
  · exact runRotate_err _ hfirst
  · exact runBlur_err hfirst

/-- PERFORM of a transform ends with the error of its first failing check (R94). -/
theorem transform_reportsInOrder {i : Instr} (s : State) (hi : i ∈ [.rotcw, .rotccw, .blur]) :
    ReportsInOrder (ErrorsWith i s) (transformChecks s) :=
  reportsInOrder_of_firstFailure fun _ hfirst => errorsWith_of_run (runInstr_transform_err hi hfirst)

/-- Settles O43: the six checks of R94 are reported in order; both regions of the last one have a byte. -/
theorem transformsReportTheirFirstFailingCheck : Obligations.TransformsReportTheirFirstFailingCheck := by
  intro s i hi
  have hreports := transform_reportsInOrder s hi
  simp only [transformChecks, ReportsInOrder, validRegion, Bool.not_eq_false', decide_eq_true_eq,
    decide_eq_false_iff_not, Nat.not_lt, Nat.not_le, Int.not_le, Int.not_lt, imp_and, implies_true, and_true]
    at hreports
  simp only [Nat.not_le]
  obtain ⟨hwidth, hheight, hsrc, hdst, hcap, hoverlap⟩ := hreports
  refine ⟨hwidth, hheight, hsrc, hdst, hcap, fun h1 h2 h3 h4 h5 hmeet => hoverlap h1 h2 h3 h4 h5 ?_⟩
  rw [Bool.not_eq_false]
  exact (overlaps_true (imgArea_pos h1 h2) (imgArea_pos h1 h2)).2 hmeet

/-! ## The turn a rotation leaves (R95, R96) -/

/-- A command that is the rotation by `index` completes with the dimensions swapped, each source pixel at its index and
no other byte changed, when its writes stay in the written region and name no byte of it twice. -/
theorem rotate_completes {i : Instr} {s : State} {index : Nat → Nat → Nat}
    (hrun : runInstr i s = runRotate s index)
    (hin : WritesIn ((List.range s.imgH).flatMap (rotateRow s index)) s.db (s.imgW * s.imgH))
    (hwf : s.mem.wf) (hok : TransformOk s) :
    ∃ t, exec i s = .next t ∧ CompletedOk s t s.imgH s.imgW (s.imgW * s.imgH) ∧
      (∀ x < s.imgW, ∀ y < s.imgH, t.mem.read (s.db + index x y) = s.srcPix x y) ∧
      (∀ a, (a < s.db ∨ s.db + s.imgW * s.imgH ≤ a) → t.mem.read a = s.mem.read a) := by
  obtain ⟨t, hexec, hdone, hmem⟩ := exec_of_run_ok (hrun.trans (runRotate_ok index hok))
  obtain ⟨hwritten, hother⟩ := hin.read_apply hwf
  rw [← hmem] at hwritten hother
  exact ⟨t, hexec, hdone, fun x hx y hy => hwritten _ _ (rotate_mem_writes index hx hy), hother⟩

/-- Settles O44: ROTCW is the rotation by `cwIndex`. -/
theorem rotcwCompletesWithTheClockwiseTurn : Obligations.RotcwCompletesWithTheClockwiseTurn := by
  intro s hwf hok W H
  simp only [Nat.add_assoc s.db]
  exact rotate_completes rfl (rotcw_writesIn s) hwf hok

/-- Settles O45: ROTCCW is the rotation by `ccwIndex`. -/
theorem rotccwCompletesWithTheCounterclockwiseTurn : Obligations.RotccwCompletesWithTheCounterclockwiseTurn := by
  intro s hwf hok W H
  simp only [Nat.add_assoc s.db]
  exact rotate_completes rfl (rotccw_writesIn s) hwf hok

/-! ## The index maps (R97) -/

/-- Counting from the other end twice is counting from the first end. -/
theorem mirror_mirror {n k : Nat} (h : k < n) : n - 1 - (n - 1 - k) = k :=
  Nat.sub_sub_self (Nat.le_sub_one_of_lt h)

/-- ROTCW takes source pixel (y, H − 1 − x) to pixel (x, y) of its output, whose rows are H long. -/
theorem cwIndex_source {H x : Nat} (y : Nat) (hx : x < H) : cwIndex H y (H - 1 - x) = y * H + x := by
  rw [cwIndex, mirror_mirror hx]

/-- ROTCCW takes source pixel (W − 1 − y, x) to pixel (x, y) of its output, whose rows are H long. -/
theorem ccwIndex_source {W y : Nat} (H x : Nat) (hy : y < W) : ccwIndex W H (W - 1 - y) x = y * H + x := by
  rw [ccwIndex, mirror_mirror hy]

/-- Quotient and remainder of a row-major index are the row and the column. -/
theorem rowMajor_div_mod {W x : Nat} (y : Nat) (hx : x < W) : (y * W + x) / W = y ∧ (y * W + x) % W = x :=
  (Nat.div_mod_unique (Nat.zero_lt_of_lt hx)).2 ⟨by rw [Nat.mul_comm W y, Nat.add_comm], hx⟩

/-- Settles O48: an index of the output is `q·H + r` with q the quotient and r the remainder by H. -/
theorem rotationMapsAreBijections : Obligations.RotationMapsAreBijections := by
  intro W H _ _
  refine ⟨fun x hx y hy => ?_, fun i hi => ?_, fun x hx y hy => ?_, fun i hi => ?_⟩
  · obtain ⟨hdiv, hmod⟩ := rowMajor_div_mod x (Nat.sub_one_sub_lt_of_lt hy)
    exact ⟨cwIndex_lt hx hy, hdiv, by rw [cwIndex, hmod, mirror_mirror hy]⟩
  · obtain ⟨hmod, hdiv, hsplit⟩ := rowMajor_split (Nat.mul_comm W H ▸ hi)
    exact ⟨hdiv, Nat.sub_one_sub_lt_of_lt hmod, (cwIndex_source _ hmod).trans hsplit⟩
  · obtain ⟨hdiv, hmod⟩ := rowMajor_div_mod (W - 1 - x) hy
    exact ⟨ccwIndex_lt hx hy, by rw [ccwIndex, hdiv, mirror_mirror hx], hmod⟩
  · obtain ⟨hmod, hdiv, hsplit⟩ := rowMajor_split (Nat.mul_comm W H ▸ hi)
    exact ⟨Nat.sub_one_sub_lt_of_lt hdiv, hmod, (ccwIndex_source _ _ hdiv).trans hsplit⟩

/-! ## The rotation laws on the machine (R98) -/

/-- The `W`×`H` pixel buffer at `base` of `m` is the image `p`. -/
def HoldsImage (m : Memory) (base W H : Nat) (p : Nat → Nat → Byte) : Prop :=
  ∀ x < W, ∀ y < H, m.pix base W x y = p x y

/-- Two buffers that hold the same image have the same bytes. -/
theorem HoldsImage.read_eq {m m' : Memory} {base base' W H : Nat} {p : Nat → Nat → Byte}
    (h : HoldsImage m base W H p) (h' : HoldsImage m' base' W H p) :
    ∀ k < W * H, m.read (base + k) = m'.read (base' + k) := by
  intro k hk
  obtain ⟨hx, hy, hsplit⟩ := rowMajor_split hk
  have heq := (h _ hx _ hy).trans (h' _ hx _ hy).symm
  rwa [Memory.pix, Memory.pix, Nat.add_assoc, Nat.add_assoc, hsplit] at heq

/-- The `W`×`H` image `p` turned by ROTCW for `cw = true`, else by ROTCCW: an `H`×`W` image. -/
def turnedImage (cw : Bool) (W H : Nat) (p : Nat → Nat → Byte) (x y : Nat) : Byte :=
  if cw then p y (H - 1 - x) else p (W - 1 - y) x

/-- Each turn undoes the other. -/
theorem turnedImage_inverse (cw : Bool) {W H x y : Nat} (p : Nat → Nat → Byte) (hx : x < W) (hy : y < H) :
    turnedImage (!cw) H W (turnedImage cw W H p) x y = p x y := by
  cases cw with
  | true => exact congrArg (p x) (mirror_mirror hy)
  | false => exact congrArg (p · y) (mirror_mirror hx)

/-- Two clockwise turns are the half turn. -/
theorem turnedImage_twice (W H x y : Nat) (p : Nat → Nat → Byte) :
    turnedImage true H W (turnedImage true W H p) x y = p (W - 1 - x) (H - 1 - y) := rfl

/-- The source of the command of `s` is the `W`×`H` image `p`. -/
structure SourceImage (s : State) (W H : Nat) (p : Nat → Nat → Byte) : Prop where
  wf : s.mem.wf
  width : s.imgW = W
  height : s.imgH = H
  pixels : HoldsImage s.mem s.sb W H p

/-- The command of `s` has left the `W`×`H` image `p` in `t`. -/
structure ResultImage (s t : State) (W H : Nat) (p : Nat → Nat → Byte) : Prop where
  wf : t.mem.wf
  width : t.regs.outWidth.toNat = W
  height : t.regs.outHeight.toNat = H
  pixels : HoldsImage t.mem s.db W H p

theorem sourceImage_self {s : State} (hwf : s.mem.wf) : SourceImage s s.imgW s.imgH s.srcPix :=
  ⟨hwf, rfl, rfl, fun _ _ _ _ => rfl⟩

/-- A rotation leaves its source turned. -/
theorem rotate_resultImage {cw : Bool} {s t : State} {W H : Nat} {p : Nat → Nat → Byte}
    (hsrc : SourceImage s W H p) (hok : TransformOk s)
    (hexec : exec (if cw then .rotcw else .rotccw) s = .next t) :
    ResultImage s t H W (turnedImage cw W H p) := by
  obtain ⟨hwf, rfl, rfl, hpixels⟩ := hsrc
  obtain ⟨hwf', hwidth, hheight, hread⟩ := rotate_result hwf hok hexec
  refine ⟨hwf', hwidth, hheight, fun x hx y hy => ?_⟩
  rw [Memory.pix, Nat.add_assoc]
  cases cw with
  | true =>
    have hy' := Nat.sub_one_sub_lt_of_lt hx
    rw [← cwIndex_source y hx]
    exact (hread y hy _ hy').trans (hpixels y hy _ hy')
  | false =>
    have hx' := Nat.sub_one_sub_lt_of_lt hy
    rw [← ccwIndex_source _ x hy]
    exact (hread _ hx' x hx).trans (hpixels _ hx' x hx)

/-- A command chained on a rotation has the rotation's result as its source (R129). -/
theorem rotate_chained_sourceImage {cw : Bool} {s t u : State} {W H : Nat} {p : Nat → Nat → Byte}
    (hsrc : SourceImage s W H p) (hok : TransformOk s)
    (hexec : exec (if cw then .rotcw else .rotccw) s = .next t) (hchain : ChainedOn s t u) :
    SourceImage u H W (turnedImage cw W H p) := by
  obtain ⟨hwf, hwidth, hheight, hpixels⟩ := rotate_resultImage hsrc hok hexec
  obtain ⟨hW, hH, hsb, hmem⟩ := chainedOn_operands hchain hwidth hheight
    (hsrc.height ▸ imgH_lt s) (hsrc.width ▸ imgW_lt s)
  exact ⟨hmem ▸ hwf, hW, hH, hmem ▸ hsb ▸ hpixels⟩

/-- A result with the pixels and the dimensions of the checked source of `s` is that source given back. -/
theorem ResultImage.source_back {s u v : State} {p : Nat → Nat → Byte} (hok : TransformOk s)
    (h : ResultImage u v s.imgW s.imgH p) (hp : ∀ x < s.imgW, ∀ y < s.imgH, p x y = s.srcPix x y) :
    v.regs.outWidth = s.lat.width ∧ v.regs.outHeight = s.lat.height ∧
      ∀ k < s.imgW * s.imgH, v.mem.read (u.db + k) = s.mem.read (s.sb + k) :=
  ⟨(dimension_word hok).1 h.width, (dimension_word hok).2 h.height,
    HoldsImage.read_eq h.pixels fun x hx y hy => (hp x hx y hy).symm⟩

/-- A turn and then the other turn give the source back. -/
theorem rotate_inverse {cw : Bool} {s t u v : State} (hwf : s.mem.wf) (hok : TransformOk s)
    (hexec : exec (if cw then .rotcw else .rotccw) s = .next t) (hchain : ChainedOn s t u) (hok' : TransformOk u)
    (hexec' : exec (if !cw then .rotcw else .rotccw) u = .next v) :
    v.regs.outWidth = s.lat.width ∧ v.regs.outHeight = s.lat.height ∧
      ∀ k < s.imgW * s.imgH, v.mem.read (u.db + k) = s.mem.read (s.sb + k) :=
  (rotate_resultImage (rotate_chained_sourceImage (sourceImage_self hwf) hok hexec hchain) hok' hexec').source_back
    hok fun _ hx _ hy => turnedImage_inverse cw s.srcPix hx hy

/-- Settles O47: a rotation turns the image it finds, and a chained one finds the image the former left, so each law is
one of turned images. -/
theorem rotationLawsHold : Obligations.RotationLawsHold := by
  refine ⟨fun i j s t u v hij hwf hok hexec hchain hok' hexec' => ?_,
    fun s t u v hwf hok hexec hchain hok' hexec' => ?_,
    fun s t u v u' t' u'' v' hwf hok hexec hchain hok' hexec' hchain' hok'' hexec'' hchain'' hok''' hexec''' => ?_⟩
  · rcases hij with ⟨rfl, rfl⟩ | ⟨rfl, rfl⟩
    · exact rotate_inverse (cw := true) hwf hok hexec hchain hok' hexec'
    · exact rotate_inverse (cw := false) hwf hok hexec hchain hok' hexec'
  · have honce := rotate_chained_sourceImage (cw := true) (sourceImage_self hwf) hok hexec hchain
    have htwice := rotate_resultImage (cw := true) honce hok' hexec'
    refine ⟨(dimension_word hok).1 htwice.width, (dimension_word hok).2 htwice.height, fun x hx y hy => ?_⟩
    have hpix := htwice.pixels _ (Nat.sub_one_sub_lt_of_lt hx) _ (Nat.sub_one_sub_lt_of_lt hy)
    rwa [turnedImage_twice, mirror_mirror hx, mirror_mirror hy] at hpix
  · have honce := rotate_chained_sourceImage (cw := true) (sourceImage_self hwf) hok hexec hchain
    have htwice := rotate_chained_sourceImage (cw := true) honce hok' hexec' hchain'
    have hthrice := rotate_chained_sourceImage (cw := true) htwice hok'' hexec'' hchain''
    have hfour := rotate_resultImage (cw := true) hthrice hok''' hexec'''
    refine hfour.source_back hok fun x hx y hy => ?_
    rw [turnedImage_twice, turnedImage_twice, mirror_mirror hx, mirror_mirror hy]

end Sys2Proof.Machine
end

section
/-! PROOFS. What BLUR leaves: the filtered interior and the copied border (R99 to R101), the window bounds of a filtered
sample (R102), and the images that BLUR copies whole (R103). -/

namespace Sys2Proof.Machine

/-! ## The sample BLUR leaves (R99, R100) -/

theorem isBorder_true {w h x y : Nat} : isBorder w h x y = true ↔ x < 2 ∨ y < 2 ∨ w ≤ x + 2 ∨ h ≤ y + 2 := by
  simp only [isBorder, Bool.or_eq_true, decide_eq_true_eq, or_assoc]

theorem blurredPix_border {s : State} {x y : Nat} (h : x < 2 ∨ y < 2 ∨ s.imgW ≤ x + 2 ∨ s.imgH ≤ y + 2) :
    blurredPix s x y = s.srcPix x y := by
  rw [blurredPix, if_pos (isBorder_true.2 h)]

theorem blurredPix_interior {s : State} {x y : Nat} (hx : 2 ≤ x ∧ x + 2 < s.imgW) (hy : 2 ≤ y ∧ y + 2 < s.imgH) :
    blurredPix s x y = gauss s.srcPix x y := by
  rw [blurredPix, isBorder_false.2 ⟨hx, hy⟩, if_neg Bool.false_ne_true]

/-- Every pixel of a buffer with fewer than five columns or rows is a border pixel (R99). -/
theorem blurredPix_small {s : State} (hsmall : s.imgW < 5 ∨ s.imgH < 5) (x y : Nat) :
    blurredPix s x y = s.srcPix x y :=
  blurredPix_border (by omega)

/-! ## PERFORM of BLUR (R101) -/

/-- BLUR completes with `blurredPix` at every pixel and no other byte changed. -/
theorem blur_completes {s : State} (hwf : s.mem.wf) (hok : TransformOk s) :
    ∃ t, exec .blur s = .next t ∧ CompletedOk s t s.imgW s.imgH (s.imgW * s.imgH) ∧
      HoldsImage t.mem s.db s.imgW s.imgH (blurredPix s) ∧
      (∀ a, (a < s.db ∨ s.db + s.imgW * s.imgH ≤ a) → t.mem.read a = s.mem.read a) := by
  obtain ⟨t, hexec, hdone, hmem⟩ := exec_of_run_ok (i := .blur) (runBlur_ok hok)
  have hother := ((blur_writesIn s).read_apply hwf).2
  rw [← hmem] at hother
  exact ⟨t, hexec, hdone, fun x hx y hy => hmem ▸ blur_read hwf hx hy, hother⟩

/-- Settles O46: the sample left at a pixel is the source's on the border, else the quotient of the kernel sum. -/
theorem blurCompletesWithTheConvolution : Obligations.BlurCompletesWithTheConvolution := by
  intro s hwf hok W H K
  obtain ⟨t, hexec, hdone, hpixels, hother⟩ := blur_completes hwf hok
  refine ⟨t, hexec, hdone, fun x hx y hy hborder => ?_, fun x y hx hxW hy hyH => ?_, hother⟩
  · exact (hpixels x hx y hy).trans (blurredPix_border hborder)
  · have hpix := (hpixels x (by omega) y (by omega)).trans (blurredPix_interior ⟨hx, hxW⟩ ⟨hy, hyH⟩)
    calc (t.mem.read (s.db + y * W + x)).toNat
        = mac s.srcPix x y / 273 := (congrArg BitVec.toNat hpix).trans (gauss_toNat s.srcPix x y)
      _ = _ := congrArg (· / 273) (mac_eq s.srcPix x y)

/-! ## The window bounds (R102) -/

/-- Settles O49: the weights sum to 273, so the kernel sum lies between `273·lo` and `273·hi`. -/
theorem gaussStaysWithinItsWindow : Obligations.GaussStaysWithinItsWindow := by
  intro p x y lo hi _ _ hwindow
  obtain ⟨hlo, hhi⟩ := mac_bounds hwindow
  rw [gauss_toNat]
  omega

/-! ## What BLUR copies (R103) -/

/-- Settles O50: a border pixel is copied, and a small image is all border. -/
theorem blurKeepsBorderAndSmallImages : Obligations.BlurKeepsBorderAndSmallImages := by
  refine ⟨fun s t hwf hok hexec => ?_, kernel_sum⟩
  obtain ⟨t', hexec', -, hpixels, -⟩ := blur_completes hwf hok
  cases hexec'.symm.trans hexec
  refine ⟨fun x hx y hy hborder => ?_, fun hsmall => ?_⟩
  · exact (hpixels x hx y hy).trans (blurredPix_border (by omega))
  · have hcopy : HoldsImage t.mem s.db s.imgW s.imgH s.srcPix := fun x hx y hy =>
      (hpixels x hx y hy).trans (blurredPix_small hsmall x y)
    exact hcopy.read_eq (sourceImage_self hwf).pixels

end Sys2Proof.Machine
end

section
/-! PROOFS. Exceptions: only the host's accesses stop the machine (R113), completion with an error (R108, R109), and
the bytes a command leaves alone (R46, R107). -/

namespace Sys2Proof.Machine

/-! ## What stops the machine (R113) -/

/-- The reset input is a step of its own (R120). -/
theorem step_reset {s : State} (hturn : s.turn = .reset) : step s = .next s.takeTurn.resetInput := by
  rw [step, hturn, agentStep]

/-- The engine's turn is PERFORM of a running engine, or the idle engine's. -/
theorem step_engine_exists_next {s : State} (hturn : s.turn = .engine) : ∃ t, step s = .next t := by
  cases hbusy : s.regs.status.busy with
  | true => exact ⟨_, step_engine_busy hturn hbusy⟩
  | false => exact ⟨_, idleEngineTurnChangesNothing s hturn hbusy⟩

/-- Settles O7: PERFORM always completes the command, and the other turns that are not the host's are unconditional. -/
theorem onlyHostAccessesStopTheMachine : Obligations.OnlyHostAccessesStopTheMachine := by
  intro s hturn
  cases hagent : s.turn with
  | host => exact absurd hagent hturn
  | engine => exact step_engine_exists_next hagent
  | reset => exact ⟨_, step_reset hagent⟩

/-! ## Completion with an error (R108, R109) -/

/-- A completion with an error leaves the engine HALTED for ALLOCATION and otherwise IDLE, if it was not fatal before. -/
theorem engine_of_completedErr {s t : State} {code : ErrCode} {info : Word} (hfatal : s.regs.status.fatal = false)
    (herr : CompletedErr s t code info) : t.engine = (if code = .allocation then .halted else .idle) := by
  obtain ⟨-, -, -, -, -, hidle, -, -, -, -, hfatal'⟩ := herr
  by_cases hcode : code = .allocation
  · rw [if_pos hcode, engine_eq_halted]
    exact ⟨hidle, hfatal'.2 (.inr hcode)⟩
  · rw [if_neg hcode, engine_eq_idle]
    exact ⟨hidle, by simpa [hfatal, hcode] using hfatal'⟩

/-- Settles O31: PERFORM is the completion with the error that `Run` answers. -/
theorem errorCompletionRecordsTheError : Obligations.ErrorCompletionRecordsTheError := by
  intro s code info hfatal hrun
  have herr := completeErr_completedErr s code info
  exact ⟨s.completeErr code info, by rw [perform_eq, hrun, State.complete], herr, engine_of_completedErr hfatal herr⟩

/-! ## The bytes a command leaves alone (R46, R107) -/

/-- PERFORM leaves MEM as it was, or a command with results has written only `(DST_BASE, OUT_LEN)`, a region apart from
its source region. -/
theorem exec_mem_cases {i : Instr} {s t : State} (hwf : s.mem.wf) (hexec : exec i s = .next t) :
    t.mem = s.mem ∨
    (i ≠ .nop ∧ t.regs.status.err = s.regs.status.err ∧ apart s.sb (sourceLen i s) s.db t.regs.outLen.toNat ∧
      ∀ a, (a < s.db ∨ s.db + t.regs.outLen.toNat ≤ a) → t.mem.read a = s.mem.read a) := by
  rcases exec_cases i s t hexec with
    ⟨code, info, -, rfl, -⟩ | ⟨-, rfl⟩ | ⟨ws, o, hrun, rfl, hin, hlen, -, -, hapart⟩
  · exact .inl rfl
  · exact .inl rfl
  · have hnop : i ≠ .nop := by
      rintro rfl
      cases hrun
    rw [completeOk_outLen, hlen]
    exact .inr ⟨hnop, rfl, hapart, (hin.read_apply hwf).2⟩

/-- Settles O32: an error and NOP write nothing, and a success writes only its written region, which the overlap check
keeps apart from the source region. -/
theorem commandsWriteOnlyTheirWrittenRegion : Obligations.CommandsWriteOnlyTheirWrittenRegion := by
  intro s t i hwf herr hexec
  rcases exec_mem_cases hwf hexec with hmem | ⟨hnop, hkeep, hapart, hother⟩
  · rw [hmem]
    exact ⟨fun _ => rfl, fun _ => rfl, fun _ _ _ _ => rfl, fun _ _ _ => rfl⟩
  · refine ⟨fun hfailed => ?_, fun h => absurd h hnop, fun _ a ha _ => hother a ha, fun a hlow hhigh => ?_⟩
    · rw [hkeep, herr] at hfailed
      cases hfailed
    · exact hother a (by omega)

end Sys2Proof.Machine
end

section
/-! PROOFS. Reset and hazards: the reset input (R120, R121), and the host accesses a model refuses, by their form (R124)
and as races with the running command (R125). -/

namespace Sys2Proof.Machine

/-! ## Register accesses of a bad form (R124) -/

/-- The host's turn is the host's step. -/
theorem step_host {s : State} (hturn : s.turn = .host) : step s = hostStep s.takeTurn := by
  rw [step, hturn, agentStep]

/-- Every access that is not 4 bytes wide at a multiple of 4 is refused, whatever it would do. -/
theorem atOffset_bad {s : State} {off width : Nat} (hoff : off < 256) (hbad : width ≠ 4 ∨ off % 4 ≠ 0)
    (act : Nat → Answer) :
    s.atOffset (s.cfg.regBase + off) width act = .refused (.badRegisterAccess (s.cfg.regBase + off) width) := by
  rw [State.atOffset, windowRefusal_bad hoff hbad]

/-- Settles O20: WR, RD and POLL all go through `atOffset`, and a POLL is 4 bytes wide. -/
theorem badRegisterAccessIsRefused : Obligations.BadRegisterAccessIsRefused := by
  intro s off width arg x mask v rest hturn hoff hbad
  rw [step_host hturn, hostStep, takeTurn_host]
  refine ⟨fun hprog => ?_, fun hprog => ?_, fun halign hprog => ?_⟩
  · rw [hprog]
    exact atOffset_bad (s := s.takeTurn.withProg rest) hoff hbad _
  · rw [hprog]
    exact atOffset_bad (s := s.takeTurn.withProg rest) hoff hbad _
  · rw [hprog]
    exact atOffset_bad (s := s.takeTurn) hoff (.inr halign) _

/-! ## Races with the running command (R49 (c), R125) -/

theorem inRegion_true {base len a : Nat} : inRegion base len a = true ↔ base ≤ a ∧ a < base + len := by
  simp [inRegion]

/-- The source region of a latched word that is a command's. -/
theorem commandSourceLen_of_instr {s : State} {i : Instr} (hdec : decode s.lat.cmd = .instr i) :
    s.commandSourceLen = sourceLen i s := by
  rw [State.commandSourceLen, hdec]

/-- A latched word that is none of the six has no source region (R75). -/
theorem commandSourceLen_of_illegal {s : State} {why : IllegalWord} (hdec : decode s.lat.cmd = .illegal why) :
    s.commandSourceLen = 0 := by
  rw [State.commandSourceLen, hdec]

/-- A byte of the running command's source region is a race. -/
theorem races_of_source {s : State} {i : Instr} {a : Nat} (hbusy : s.regs.status.busy = true)
    (hdec : decode s.lat.cmd = .instr i) (hlow : s.sb ≤ a) (hhigh : a < s.sb + sourceLen i s) : s.races a = true := by
  have hsource : s.inSource a = true := by
    rw [State.inSource, commandSourceLen_of_instr hdec]
    exact inRegion_true.2 ⟨hlow, hhigh⟩
  rw [State.races, hbusy, hsource, Bool.true_or, Bool.true_and]

/-- A byte of the region the running command will write is a race. -/
theorem races_of_written {s : State} {i : Instr} {a : Nat} {ws : List Host.Cell} {o : Out}
    (hbusy : s.regs.status.busy = true) (hdec : decode s.lat.cmd = .instr i) (hrun : runInstr i s = .ok ws (some o))
    (hlow : s.db ≤ a) (hhigh : a < s.db + o.len) : s.races a = true := by
  have hwritten : s.inWritten a = true := by
    rw [State.inWritten, runCommand_of_instr hdec, hrun]
    exact inRegion_true.2 ⟨hlow, hhigh⟩
  rw [State.races, hbusy, hwritten, Bool.or_true, Bool.true_and]

/-- A race at a byte of MEM is refused, whatever the access would do. -/
theorem atMemByte_race {s : State} {a : Nat} (ha : a < s.cfg.memBytes) (hrace : s.races a = true) (act : Answer) :
    s.atMemByte a act = .refused (.race a) := by
  rw [State.atMemByte, if_neg (Nat.not_le.2 ha), if_pos hrace]

/-- A host access to a byte of MEM that is a race is refused, a write and a read. -/
theorem step_of_race {s : State} {a n x : Nat} {b : Byte} {bs got : List Byte} {rest : List HostOp}
    (hturn : s.turn = .host) (ha : a < s.cfg.memBytes) (hrace : s.races a = true)
    (hprog : s.host.prog = .memWrite a (b :: bs) :: rest ∨ s.host.prog = .memRead a (n + 1) x got :: rest) :
    step s = .refused (.race a) := by
  rcases hprog with hprog | hprog
  · exact (step_mem_write hturn hprog).trans (atMemByte_race (s := s.takeTurn) ha hrace _)
  · exact (step_mem_read hturn hprog).trans (atMemByte_race (s := s.takeTurn) ha hrace _)

/-- A byte outside the source and written regions of a latched command is free. -/
theorem freeByte_of_instr {s : State} {i : Instr} {a : Nat} (hdec : decode s.lat.cmd = .instr i)
    (ha : a < s.cfg.memBytes) (hsource : ¬ (s.sb ≤ a ∧ a < s.sb + sourceLen i s))
    (hwritten : ∀ ws o, runInstr i s = .ok ws (some o) → ¬ (s.db ≤ a ∧ a < s.db + o.len)) : FreeByte s a := by
  refine ⟨ha, fun _ => ?_⟩
  rw [commandSourceLen_of_instr hdec, runCommand_of_instr hdec]
  exact ⟨hsource, hwritten⟩

/-- An illegal word owns no byte: it reads none, and ends with an error (R75, R107). -/
theorem freeByte_of_illegal {s : State} {why : IllegalWord} {a : Nat} (hdec : decode s.lat.cmd = .illegal why)
    (ha : a < s.cfg.memBytes) : FreeByte s a := by
  refine ⟨ha, fun _ => ?_⟩
  rw [commandSourceLen_of_illegal hdec, runCommand_of_illegal hdec]
  exact ⟨by omega, fun ws o hok => by cases hok⟩

/-- Settles O23: a byte of either region is a race, and every other byte is free. -/
theorem accessToABusyRegionIsRefused : Obligations.AccessToABusyRegionIsRefused := by
  intro s a b bs n x got rest hturn hbusy ha hprog
  have hrefused (hrace : s.races a = true) : step s = .refused (.race a) := step_of_race hturn ha hrace hprog
  have hfree (hbyte : FreeByte s a) : ∃ t, step s = .next t := step_of_freeByte hturn hbyte hprog
  refine ⟨fun i hdec => ⟨?_, ?_, ?_, ?_⟩, fun hword => ?_⟩
  · rintro rfl hlow hhigh
    exact hrefused (races_of_source hbusy hdec hlow hhigh)
  · intro hi _ _ hlow hhigh
    rw [← sourceLen_of_buffer s hi] at hhigh
    exact hrefused (races_of_source hbusy hdec hlow hhigh)
  · intro ws o hrun hlow hhigh
    exact hrefused (races_of_written hbusy hdec hrun hlow hhigh)
  · intro _ hsource hwritten
    exact hfree (freeByte_of_instr hdec ha hsource hwritten)
  · obtain ⟨why, hdec⟩ := (illegalWordsAreReservedOpOrNonzeroRsvd s.lat.cmd).2 hword
    exact hfree (freeByte_of_illegal hdec ha)

/-! ## The reset input (R120) -/

/-- After the reset input every register reads as after power-up with the same parameters (R120, R122). -/
theorem readOffset_resetInput (s : State) (m : Memory) (off : Nat) :
    s.resetInput.readOffset off = (State.powerUp s.cfg m).readOffset off := by
  unfold State.readOffset
  cases Reg.at? off with
  | none => rfl
  | some r => cases r <;> rfl

/-- No lane has a block while no command runs (R33). -/
theorem lanePartition_of_idle {s : State} (hidle : s.regs.status.busy = false) : s.lanePartition = [] := by
  unfold State.lanePartition
  rw [hidle]

/-- With BUSY = 0 the reset input leaves MEM alone (R120). -/
theorem memAfterReset_of_idle {s : State} (hidle : s.regs.status.busy = false) : s.memAfterReset = s.mem := by
  simp [State.memAfterReset, hidle]

/-- Settles O55: the registers are those of power-up, which O14 has. -/
theorem resetInputRestoresRegisters : Obligations.ResetInputRestoresRegisters := by
  intro s hturn
  obtain ⟨-, -, hctrl, hzero, -⟩ := registerMapAfterPowerUp s.cfg s.mem
  have hread := readOffset_resetInput s.takeTurn s.mem
  refine ⟨_, step_reset hturn, (hread _).trans hctrl, fun off hoff => (hread off).trans (hzero off hoff), rfl, rfl,
    engine_eq_idle.2 ⟨rfl, rfl⟩, lanePartition_of_idle rfl, fun hidle => ?_⟩
  exact memAfterReset_of_idle (s := s.takeTurn) hidle

/-! ## The reset input while RUNNING (R121) -/

/-- A reset of a command that would end with an error changes no byte (R107, R121). -/
theorem memAfterReset_of_err {s : State} {code : ErrCode} {info : Word} (hrun : runCommand s = .err code info) :
    s.memAfterReset = s.mem := by
  unfold State.memAfterReset
  rw [hrun]
  split <;> rfl

/-- A reset changes no byte outside the written region of what `Run` would answer (R121). -/
theorem read_memAfterReset_outside {s : State} (hwf : s.mem.wf) {a : Nat}
    (ha : a < s.db ∨ s.db + (runCommand s).writtenLen ≤ a) : s.memAfterReset.read a = s.mem.read a := by
  unfold State.memAfterReset
  split
  · refine memory_read_apply_other hwf fun c hc => ?_
    obtain ⟨hlow, hhigh⟩ := freeCells_addr hc
    omega
  · rfl

/-- A source byte of a command is outside the written region of what it answers: the region is empty, or the overlap
check passed (R45, R46). -/
theorem source_outside_written {i : Instr} {s : State} {a : Nat} (hlow : s.sb ≤ a)
    (hhigh : a < s.sb + sourceLen i s) : a < s.db ∨ s.db + (runInstr i s).writtenLen ≤ a := by
  rcases runInstr_cases i s with ⟨code, info, hrun, -⟩ | ⟨-, hrun⟩ | ⟨ws, o, hrun, -, -, -, hapart⟩
  all_goals
    rw [hrun, Result.writtenLen]
    omega

/-- Settles O56: MEM takes free values in the written region only, which is empty for an error and keeps off the source
region. -/
theorem resetWhileRunningTouchesOnlyTheDestination : Obligations.ResetWhileRunningTouchesOnlyTheDestination := by
  intro s t hwf hturn _ hstep
  cases (step_reset hturn).symm.trans hstep
  refine ⟨rfl, fun code info hrun => memAfterReset_of_err (s := s.takeTurn) hrun, fun i ws out hdec hrun => ?_⟩
  have hkeeps (a : Nat) (ha : a < s.db ∨ s.db + (runInstr i s).writtenLen ≤ a) :
      s.takeTurn.resetInput.mem.read a = s.mem.read a := by
    rw [← runCommand_of_instr hdec] at ha
    exact read_memAfterReset_outside (s := s.takeTurn) hwf ha
  refine ⟨fun a ha => hkeeps a ?_, fun a hlow hhigh => hkeeps a (source_outside_written hlow hhigh)⟩
  rw [hrun]
  cases out with
  | none => rw [Result.writtenLen]; omega
  | some o => exact ha o rfl

end Sys2Proof.Machine
end
